-- ==== Sys2Proof/Word.lean ====
section
/-! DEFINITION. The word types of the CORE. Every value of the machine is unsigned (spec 00_scope.md R10). -/

namespace Sys2Proof

/-- An 8-bit memory byte or variable-register value (R21, R50). -/
abbrev Byte := BitVec 8

/-- A 16-bit value: an instruction word, PC, I or a return address (R24, R27, R29, R80). -/
abbrev Word := BitVec 16

/-- A 12-bit address field `nnn` (R82). -/
abbrev Addr12 := BitVec 12

/-- The number of a variable register, 0x0 to 0xF (R21). -/
abbrev RegIx := Fin 16

/-- A key of the keypad, 0x0 to 0xF (R233). -/
abbrev Key := Fin 16

end Sys2Proof
end

