-- ==== Sys2Proof/Config.lean ====
section
/-! DEFINITION. The fixed parameters of spec 00_scope.md R7 and the free values: what a collaborator answers, which the
spec leaves open on every use (93_implementation_defined.md U4, U5, U10, U17). A free value is an opaque constant applied to
the model's draw counter, so nothing can be proved of it beyond its type (log 6, log 8). -/

namespace Sys2Proof.Config

/-- MEM_SIZE (R7): addresses 0x000 to 0xFFF. -/
def memSize : Nat := 4096

/-- PROG_START (R7): where ROM bytes are copied and where execution begins. -/
def progStart : Nat := 0x200

/-- FONT_BASE (R7). -/
def fontBase : Nat := 0x000

/-- FONT_SIZE (R7): 16 glyphs of 5 bytes. -/
def fontSize : Nat := 80

/-- GLYPH_BYTES (R7). -/
def glyphBytes : Nat := 5

/-- MAX_ROM (R7) = MEM_SIZE − PROG_START. -/
def maxRom : Nat := 3584

/-- STACK_DEPTH (R7). -/
def stackDepth : Nat := 16

/-- FB_W (R7): columns of the framebuffer. -/
def fbWidth : Nat := 64

/-- FB_H (R7): rows of the framebuffer. -/
def fbHeight : Nat := 32

/-- SPRITE_MAX_H (R7): the largest row count a Dxyn names. -/
def spriteMaxRows : Nat := 15

/-- Free value (R267): the random byte given at the `n`-th unscripted draw. -/
opaque randByte : Nat → Byte

/-- Free value (R264): whether key `k` is held, asked at the `n`-th unscripted draw. -/
opaque keyHeld : Nat → Key → Bool

/-- Free value (R263): whether the display reports open, asked at the `n`-th unscripted draw. -/
opaque isOpen : Nat → Bool

/-- Free value (R240, U17): whether a stop request wins over a pending wait answer at the `n`-th unscripted draw. -/
opaque stopBeforeKey : Nat → Bool

end Sys2Proof.Config
end

