-- ==== Sys2Proof/Syntax.lean ====
section
/-! DEFINITION. The instructions: one constructor per row of spec/opcode_table.json (30_encoding.md R86). A register number
is a `Fin 16`, an immediate a bit vector of its field's width, and the row count of `drw` a number, which `Instr.wf` bounds. -/

namespace Sys2Proof

/-- The 34 instructions (R3, R86); `x`, `y`, `n`, `nn`, `nnn` are the operand fields of R82. -/
inductive Instr where
  /-- 00E0, `CLS`: Clear screen (R191). -/
  | cls
  /-- 00EE, `RET`: Return (R141). -/
  | ret
  /-- 1nnn, `JP nnn`: Jump (R142). -/
  | jp (nnn : Addr12)
  /-- 2nnn, `CALL nnn`: Call (R143). -/
  | call (nnn : Addr12)
  /-- 3xnn, `SE Vx, nn`: Skip if Vx == nn (R144). -/
  | seImm (x : RegIx) (nn : Byte)
  /-- 4xnn, `SNE Vx, nn`: Skip if Vx != nn (R145). -/
  | sneImm (x : RegIx) (nn : Byte)
  /-- 5xy0, `SE Vx, Vy`: Skip if Vx == Vy (R146). -/
  | seReg (x y : RegIx)
  /-- 9xy0, `SNE Vx, Vy`: Skip if Vx != Vy (R147). -/
  | sneReg (x y : RegIx)
  /-- 6xnn, `LD Vx, nn`: Load (R161). -/
  | ldImm (x : RegIx) (nn : Byte)
  /-- 7xnn, `ADD Vx, nn`: Add (R162). -/
  | addImm (x : RegIx) (nn : Byte)
  /-- 8xy0, `LD Vx, Vy`: ALU group: Vy→Vx (R163). -/
  | ldReg (x y : RegIx)
  /-- 8xy1, `OR Vx, Vy`: ALU group: OR (R164). -/
  | orReg (x y : RegIx)
  /-- 8xy2, `AND Vx, Vy`: ALU group: AND (R165). -/
  | andReg (x y : RegIx)
  /-- 8xy3, `XOR Vx, Vy`: ALU group: XOR (R166). -/
  | xorReg (x y : RegIx)
  /-- 8xy4, `ADD Vx, Vy`: ALU group: ADD (R167). -/
  | addReg (x y : RegIx)
  /-- 8xy5, `SUB Vx, Vy`: ALU group: SUB Vx-Vy (R168). -/
  | sub (x y : RegIx)
  /-- 8xy6, `SHR Vx, Vy`: ALU group: shift-right (R169). -/
  | shr (x y : RegIx)
  /-- 8xy7, `SUBN Vx, Vy`: ALU group: SUBN Vy-Vx (R170). -/
  | subn (x y : RegIx)
  /-- 8xyE, `SHL Vx, Vy`: ALU group: shift-left (R171). -/
  | shl (x y : RegIx)
  /-- Annn, `LD I, nnn`: Load index (R210). -/
  | ldI (nnn : Addr12)
  /-- Bnnn, `JP V0, nnn`: Jump with offset (R148). -/
  | jpV0 (nnn : Addr12)
  /-- Cxnn, `RND Vx, nn`: Random AND (R172). -/
  | rnd (x : RegIx) (nn : Byte)
  /-- Dxyn, `DRW Vx, Vy, n`: Draw sprite (R192). -/
  | drw (x y : RegIx) (n : Nat)
  /-- Ex9E, `SKP Vx`: Skip if key pressed (R234). -/
  | skp (x : RegIx)
  /-- ExA1, `SKNP Vx`: Skip if key not pressed (R235). -/
  | sknp (x : RegIx)
  /-- Fx07, `LD Vx, DT`: Timer get (R230). -/
  | ldVxDt (x : RegIx)
  /-- Fx0A, `LD Vx, K`: Block for key press (R236). -/
  | ldVxK (x : RegIx)
  /-- Fx15, `LD DT, Vx`: Timer set (R231). -/
  | ldDtVx (x : RegIx)
  /-- Fx18, `LD ST, Vx`: Set sound (R232). -/
  | ldStVx (x : RegIx)
  /-- Fx1E, `ADD I, Vx`: Add to index (R211). -/
  | addI (x : RegIx)
  /-- Fx29, `LD F, Vx`: Font address (R212). -/
  | ldF (x : RegIx)
  /-- Fx33, `LD B, Vx`: BCD split (R213). -/
  | ldB (x : RegIx)
  /-- Fx55, `LD [I], Vx`: Store registers (R214). -/
  | storeRegs (x : RegIx)
  /-- Fx65, `LD Vx, [I]`: Load registers (R215). -/
  | loadRegs (x : RegIx)
  deriving DecidableEq, Repr

end Sys2Proof
end

