-- ==== Sys2Proof/Decode.lean ====
section
/-! DEFINITION. Decoding (spec 30_encoding.md R81 to R88) and, after it, the encoder, both written from the opcode table of R86.
The decoder dispatches on nibble 1, then on nibble 4 or the low byte (R84, R85); it never looks at the table, so that the
agreement of the two is a statement. -/

namespace Sys2Proof

/-- The six disjoint sets of words that name no instruction (R88), each with its own name. -/
inductive IllegalWord where
  /-- 0x0nnn other than 00E0 and 00EE, "system call" words and 0x0000 included. -/
  | family0
  /-- 5xyN with N ≠ 0. -/
  | family5
  /-- 9xyN with N ≠ 0. -/
  | family9
  /-- 8xyN with N in 8, 9, A, B, C, D, F. -/
  | family8
  /-- ExNN with NN neither 9E nor A1. -/
  | familyE
  /-- FxNN with NN none of the nine low bytes of R85. -/
  | familyF
  deriving DecidableEq, Repr

/-- The register a 4-bit field selects (R91: every value is legal). -/
def regOf (field : BitVec 4) : RegIx := ⟨field.toNat, field.isLt⟩

/-- The 4-bit field that selects a register. -/
def regField (x : RegIx) : BitVec 4 := BitVec.ofNat 4 x.val

/-- A byte from its high and low nibbles (R81). -/
def byteOf (high low : BitVec 4) : Byte := high ++ low

/-- The field nnn from nibble 2 and the low byte (R82). -/
def addrOf (nibble2 : BitVec 4) (low : Byte) : Addr12 := nibble2 ++ low

/-- A byte's high nibble (R81). -/
def highNibble (b : Byte) : BitVec 4 := b.extractLsb' 4 4

/-- A byte's low nibble (R81). -/
def lowNibble (b : Byte) : BitVec 4 := b.extractLsb' 0 4

/-- Family 0 (R85): matched on the whole word. -/
def decodeFamily0 (nibble2 : BitVec 4) (low : Byte) : Except IllegalWord Instr :=
  if nibble2 = 0x0#4 ∧ low = 0xE0#8 then .ok .cls
  else if nibble2 = 0x0#4 ∧ low = 0xEE#8 then .ok .ret
  else .error .family0

/-- Family 8 (R85): matched on nibble 4, the nine operations of the ALU group. -/
def decodeFamily8 (x y : RegIx) (nibble4 : BitVec 4) : Except IllegalWord Instr :=
  match nibble4 with
  | 0x0#4 => .ok (.ldReg x y)
  | 0x1#4 => .ok (.orReg x y)
  | 0x2#4 => .ok (.andReg x y)
  | 0x3#4 => .ok (.xorReg x y)
  | 0x4#4 => .ok (.addReg x y)
  | 0x5#4 => .ok (.sub x y)
  | 0x6#4 => .ok (.shr x y)
  | 0x7#4 => .ok (.subn x y)
  | 0xE#4 => .ok (.shl x y)
  | _ => .error .family8

/-- Family E (R85): matched on the low byte. -/
def decodeFamilyE (x : RegIx) (low : Byte) : Except IllegalWord Instr :=
  match low with
  | 0x9E#8 => .ok (.skp x)
  | 0xA1#8 => .ok (.sknp x)
  | _ => .error .familyE

/-- Family F (R85): matched on the low byte, nine operations. -/
def decodeFamilyF (x : RegIx) (low : Byte) : Except IllegalWord Instr :=
  match low with
  | 0x07#8 => .ok (.ldVxDt x)
  | 0x0A#8 => .ok (.ldVxK x)
  | 0x15#8 => .ok (.ldDtVx x)
  | 0x18#8 => .ok (.ldStVx x)
  | 0x1E#8 => .ok (.addI x)
  | 0x29#8 => .ok (.ldF x)
  | 0x33#8 => .ok (.ldB x)
  | 0x55#8 => .ok (.storeRegs x)
  | 0x65#8 => .ok (.loadRegs x)
  | _ => .error .familyF

/-- Decode the two fetched bytes (R81): total, an instruction or the named set the word falls in. First-level dispatch is on
nibble 1 (R84); the last arm is the one nibble left, 0xF. Families 5 and 9 need nibble 4 = 0 (R85). -/
def decode (high low : Byte) : Except IllegalWord Instr :=
  let nibble1 := highNibble high
  let nibble2 := lowNibble high
  let nibble3 := highNibble low
  let nibble4 := lowNibble low
  let x := regOf nibble2
  let y := regOf nibble3
  let nnn := addrOf nibble2 low
  match nibble1 with
  | 0x0#4 => decodeFamily0 nibble2 low
  | 0x1#4 => .ok (.jp nnn)
  | 0x2#4 => .ok (.call nnn)
  | 0x3#4 => .ok (.seImm x low)
  | 0x4#4 => .ok (.sneImm x low)
  | 0x5#4 => if nibble4 = 0x0#4 then .ok (.seReg x y) else .error .family5
  | 0x6#4 => .ok (.ldImm x low)
  | 0x7#4 => .ok (.addImm x low)
  | 0x8#4 => decodeFamily8 x y nibble4
  | 0x9#4 => if nibble4 = 0x0#4 then .ok (.sneReg x y) else .error .family9
  | 0xA#4 => .ok (.ldI nnn)
  | 0xB#4 => .ok (.jpV0 nnn)
  | 0xC#4 => .ok (.rnd x low)
  | 0xD#4 => .ok (.drw x y nibble4.toNat)
  | 0xE#4 => decodeFamilyE x low
  | _ => decodeFamilyF x low

/-- The high-order byte of a word: the byte at the lower address (R51). -/
def highByte (w : Word) : Byte := w.extractLsb' 8 8

/-- The low-order byte of a word: the byte at the higher address (R51). -/
def lowByte (w : Word) : Byte := w.extractLsb' 0 8

/-- `raw = high ++ low` (R51, R81). -/
def wordOf (high low : Byte) : Word := high ++ low

/-- Decode a whole instruction word. -/
def decodeWord (w : Word) : Except IllegalWord Instr := decode (highByte w) (lowByte w)

/-! The encoder, by the formats of R83. -/

/-- Format FA: op, nnn. -/
def encodeFA (op : BitVec 4) (nnn : Addr12) : Word := op ++ nnn

/-- Format FI: op, x, nn; also format FX, whose low byte is the function. -/
def encodeFI (op : BitVec 4) (x : RegIx) (nn : Byte) : Word := encodeFA op (addrOf (regField x) nn)

/-- Formats FR and FD: op, x, y, then the function or the count. -/
def encodeFR (op : BitVec 4) (x y : RegIx) (function : BitVec 4) : Word :=
  encodeFI op x (byteOf (regField y) function)

/-- The word of an instruction (R83, R86). -/
def encode : Instr → Word
  | .cls => 0x00E0#16
  | .ret => 0x00EE#16
  | .jp nnn => encodeFA 0x1#4 nnn
  | .call nnn => encodeFA 0x2#4 nnn
  | .seImm x nn => encodeFI 0x3#4 x nn
  | .sneImm x nn => encodeFI 0x4#4 x nn
  | .seReg x y => encodeFR 0x5#4 x y 0x0#4
  | .sneReg x y => encodeFR 0x9#4 x y 0x0#4
  | .ldImm x nn => encodeFI 0x6#4 x nn
  | .addImm x nn => encodeFI 0x7#4 x nn
  | .ldReg x y => encodeFR 0x8#4 x y 0x0#4
  | .orReg x y => encodeFR 0x8#4 x y 0x1#4
  | .andReg x y => encodeFR 0x8#4 x y 0x2#4
  | .xorReg x y => encodeFR 0x8#4 x y 0x3#4
  | .addReg x y => encodeFR 0x8#4 x y 0x4#4
  | .sub x y => encodeFR 0x8#4 x y 0x5#4
  | .shr x y => encodeFR 0x8#4 x y 0x6#4
  | .subn x y => encodeFR 0x8#4 x y 0x7#4
  | .shl x y => encodeFR 0x8#4 x y 0xE#4
  | .ldI nnn => encodeFA 0xA#4 nnn
  | .jpV0 nnn => encodeFA 0xB#4 nnn
  | .rnd x nn => encodeFI 0xC#4 x nn
  | .drw x y n => encodeFR 0xD#4 x y (BitVec.ofNat 4 n)
  | .skp x => encodeFI 0xE#4 x 0x9E#8
  | .sknp x => encodeFI 0xE#4 x 0xA1#8
  | .ldVxDt x => encodeFI 0xF#4 x 0x07#8
  | .ldVxK x => encodeFI 0xF#4 x 0x0A#8
  | .ldDtVx x => encodeFI 0xF#4 x 0x15#8
  | .ldStVx x => encodeFI 0xF#4 x 0x18#8
  | .addI x => encodeFI 0xF#4 x 0x1E#8
  | .ldF x => encodeFI 0xF#4 x 0x29#8
  | .ldB x => encodeFI 0xF#4 x 0x33#8
  | .storeRegs x => encodeFI 0xF#4 x 0x55#8
  | .loadRegs x => encodeFI 0xF#4 x 0x65#8

/-! The opcode table of R86. -/

/-- One row of the table: a word `w` is the row's instruction iff `w &&& mask = value`. -/
structure OpcodeRow where
  mnemonic : String
  value : Word
  mask : Word
  deriving DecidableEq, Repr

/-- The table's row of an instruction. -/
def Instr.row : Instr → OpcodeRow
  | .cls => ⟨"CLS", 0x00E0#16, 0xFFFF#16⟩
  | .ret => ⟨"RET", 0x00EE#16, 0xFFFF#16⟩
  | .jp _ => ⟨"JP_nnn", 0x1000#16, 0xF000#16⟩
  | .call _ => ⟨"CALL_nnn", 0x2000#16, 0xF000#16⟩
  | .seImm _ _ => ⟨"SE_Vx__nn", 0x3000#16, 0xF000#16⟩
  | .sneImm _ _ => ⟨"SNE_Vx__nn", 0x4000#16, 0xF000#16⟩
  | .seReg _ _ => ⟨"SE_Vx__Vy", 0x5000#16, 0xF00F#16⟩
  | .sneReg _ _ => ⟨"SNE_Vx__Vy", 0x9000#16, 0xF00F#16⟩
  | .ldImm _ _ => ⟨"LD_Vx__nn", 0x6000#16, 0xF000#16⟩
  | .addImm _ _ => ⟨"ADD_Vx__nn", 0x7000#16, 0xF000#16⟩
  | .ldReg _ _ => ⟨"LD_Vx__Vy", 0x8000#16, 0xF00F#16⟩
  | .orReg _ _ => ⟨"OR_Vx__Vy", 0x8001#16, 0xF00F#16⟩
  | .andReg _ _ => ⟨"AND_Vx__Vy", 0x8002#16, 0xF00F#16⟩
  | .xorReg _ _ => ⟨"XOR_Vx__Vy", 0x8003#16, 0xF00F#16⟩
  | .addReg _ _ => ⟨"ADD_Vx__Vy", 0x8004#16, 0xF00F#16⟩
  | .sub _ _ => ⟨"SUB_Vx__Vy", 0x8005#16, 0xF00F#16⟩
  | .shr _ _ => ⟨"SHR_Vx__Vy", 0x8006#16, 0xF00F#16⟩
  | .subn _ _ => ⟨"SUBN_Vx__Vy", 0x8007#16, 0xF00F#16⟩
  | .shl _ _ => ⟨"SHL_Vx__Vy", 0x800E#16, 0xF00F#16⟩
  | .ldI _ => ⟨"LD_I__nnn", 0xA000#16, 0xF000#16⟩
  | .jpV0 _ => ⟨"JP_V0__nnn", 0xB000#16, 0xF000#16⟩
  | .rnd _ _ => ⟨"RND_Vx__nn", 0xC000#16, 0xF000#16⟩
  | .drw _ _ _ => ⟨"DRW_Vx__Vy__n", 0xD000#16, 0xF000#16⟩
  | .skp _ => ⟨"SKP_Vx", 0xE09E#16, 0xF0FF#16⟩
  | .sknp _ => ⟨"SKNP_Vx", 0xE0A1#16, 0xF0FF#16⟩
  | .ldVxDt _ => ⟨"LD_Vx__DT", 0xF007#16, 0xF0FF#16⟩
  | .ldVxK _ => ⟨"LD_Vx__K", 0xF00A#16, 0xF0FF#16⟩
  | .ldDtVx _ => ⟨"LD_DT__Vx", 0xF015#16, 0xF0FF#16⟩
  | .ldStVx _ => ⟨"LD_ST__Vx", 0xF018#16, 0xF0FF#16⟩
  | .addI _ => ⟨"ADD_I__Vx", 0xF01E#16, 0xF0FF#16⟩
  | .ldF _ => ⟨"LD_F__Vx", 0xF029#16, 0xF0FF#16⟩
  | .ldB _ => ⟨"LD_B__Vx", 0xF033#16, 0xF0FF#16⟩
  | .storeRegs _ => ⟨"LD__I___Vx", 0xF055#16, 0xF0FF#16⟩
  | .loadRegs _ => ⟨"LD_Vx___I", 0xF065#16, 0xF0FF#16⟩

/-- The 34 rows in the table's order. -/
def opcodeTable : List OpcodeRow :=
  [Instr.row .cls, Instr.row .ret, Instr.row (.jp 0), Instr.row (.call 0), Instr.row (.seImm 0 0), Instr.row (.sneImm 0 0)] ++
  [Instr.row (.seReg 0 0), Instr.row (.sneReg 0 0), Instr.row (.ldImm 0 0), Instr.row (.addImm 0 0), Instr.row (.ldReg 0 0), Instr.row (.orReg 0 0)] ++
  [Instr.row (.andReg 0 0), Instr.row (.xorReg 0 0), Instr.row (.addReg 0 0), Instr.row (.sub 0 0), Instr.row (.shr 0 0), Instr.row (.subn 0 0)] ++
  [Instr.row (.shl 0 0), Instr.row (.ldI 0), Instr.row (.jpV0 0), Instr.row (.rnd 0 0), Instr.row (.drw 0 0 0), Instr.row (.skp 0)] ++
  [Instr.row (.sknp 0), Instr.row (.ldVxDt 0), Instr.row (.ldVxK 0), Instr.row (.ldDtVx 0), Instr.row (.ldStVx 0), Instr.row (.addI 0)] ++
  [Instr.row (.ldF 0), Instr.row (.ldB 0), Instr.row (.storeRegs 0), Instr.row (.loadRegs 0)]

/-- The host's view of the decoder: the instruction read from a table word of `nbits` bits, the first word's bit 0 least
significant and the bits above `nbits` zero; the bytes are laid out high byte first (R51). -/
def decodeTableWord (nbits w : Nat) : Option Instr :=
  (decodeWord (BitVec.ofNat 16 (w % 2 ^ nbits))).toOption

end Sys2Proof
end

