-- ==== Sys2Proof/Machine/State.lean ====
section
/-! DEFINITION. The state of the CORE (spec 10_state.md R20), what ends a run (R35, 60_exceptions.md R250), what the
collaborators have answered (R263 to R267), and the state at reset (R40, R280). All of it is plain data. -/

namespace Sys2Proof.Machine

/-- Memory M: (address, byte) cells with addresses strictly rising, none equal to what an unlisted address reads as
(`Memory.initial`). `Memory.wf` states the form. -/
abbrev Memory := List Host.Cell

/-- One row of the framebuffer: 64 one-bit pixels, column 0 the most significant bit, as in a sprite byte (R9, log 14). -/
abbrev FbRow := BitVec 64

/-- The framebuffer FB: 32 rows of 64 pixels, row 0 on top (R34). -/
abbrev Framebuffer := Vector FbRow 32

/-- The kind of a fault with the value it records: the rows of R250's table, codes 1 to 6. -/
inductive FaultCause where
  /-- Code 1, DecodeError: the word matched no opcode row (R251). -/
  | decodeError (raw : Word)
  /-- Code 2, BoundsError STACK_OVERFLOW: 2nnn with SP = 16; records SP (R252). -/
  | stackOverflow (sp : Nat)
  /-- Code 3, BoundsError STACK_UNDERFLOW: 00EE with SP = 0; records SP (R253). -/
  | stackUnderflow (sp : Nat)
  /-- Code 4, BoundsError MEM_RANGE: the block passes 0xFFF; records (I, count) (R254). -/
  | memRange (base : Word) (count : Nat)
  /-- Code 5, BoundsError FETCH_RANGE: PC = 0xFFF < ProgEnd; records PC (R255). -/
  | fetchRange (pc : Word)
  /-- Code 6, BoundsError KEY_RANGE: V[x] > 0xF; records V[x] (R256). -/
  | keyRange (value : Byte)
  deriving DecidableEq, Repr

/-- A fault's record (kind, a, raw, info): the cause holds kind and info, `raw` is absent for FETCH_RANGE (R250). -/
structure FaultRecord where
  cause : FaultCause
  addr : Word
  raw : Option Word
  deriving DecidableEq, Repr

/-- Why the Run Loop stopped (R35): four normal stops (R258) and a fault with its record. -/
inductive StopReason where
  | endOfProgram
  | stopSignal
  | displayClosed
  | keyWaitCancelled
  | fault (record : FaultRecord)
  deriving DecidableEq, Repr

/-- The run state (R35). -/
inductive RunState where
  | running
  | stopped (reason : StopReason)
  deriving DecidableEq, Repr

/-- An output event (R41): a copy of the framebuffer sent to the display (R262), or one play trigger (R268). -/
inductive Event where
  | render (fb : Framebuffer)
  | tone
  deriving DecidableEq, Repr

/-- What the key wait returns (R265): a key, or "no key" when input was cancelled. -/
inductive WaitAnswer where
  | key (k : Key)
  | noKey
  deriving DecidableEq, Repr

/-- What the host has set or answered so far, and the core only reads (R269). Each queue holds the answers still to be taken,
oldest first; `draws` is the model's own counter, the argument of the free values of `Config` (log 5, log 6, log 7). -/
structure Inputs where
  /-- The stop latch (R37, R266). -/
  stopReq : Bool
  /-- Answers to `is_open()` (R263). -/
  isOpen : List Bool
  /-- Answers to `query_key(k)` (R264). -/
  keyHeld : List Bool
  /-- Answers `wait_key()` has delivered; none while the list is empty (R265). -/
  waitKey : List WaitAnswer
  /-- Bytes of the random source (R267). -/
  randByte : List Byte
  /-- How many free values have been drawn (the model's own). -/
  draws : Nat
  deriving DecidableEq, Repr

/-- The whole state: the tuple of R20, the construction parameter DISPLAY_ATTACHED (R8) and the inputs. -/
@[ext]
structure State where
  /-- Memory M (R50). -/
  mem : Memory
  /-- Variable registers V0 to VF (R21). -/
  v : Vector Byte 16
  /-- Index register I (R27). -/
  i : Word
  /-- Program counter PC (R24). -/
  pc : Word
  /-- Call stack slots S[0] to S[15] (R29). -/
  stack : Vector Word 16
  /-- Call stack pointer SP: the number of live entries, 0 to 16 (R29). -/
  sp : Fin 17
  /-- Delay timer DT (R31). -/
  dt : Byte
  /-- Sound timer ST (R32). -/
  st : Byte
  /-- Framebuffer FB (R34). -/
  fb : Framebuffer
  /-- ProgEnd, fixed at construction (R33). -/
  progEnd : Nat
  /-- Run state (R35). -/
  run : RunState
  /-- KeyWait (R36). -/
  keyWait : Option RegIx
  /-- Output events, oldest first (R41). -/
  trace : List Event
  /-- DISPLAY_ATTACHED, fixed at construction (R8, R112). -/
  displayAttached : Bool
  /-- What the host has set or answered (R263 to R267). -/
  inputs : Inputs
  deriving DecidableEq, Repr

/-- Why a step does not exist. -/
inductive Fault where
  /-- Raised by `step` in a Stopped machine, which "takes no further step" (R35, R110, R261). Safe. -/
  | stopped (reason : StopReason)
  deriving DecidableEq, Repr

/-- An instruction the model gives no meaning. -/
inductive Refusal where
  /-- Raised by `exec` for an instruction with no meaning yet; no arm raises it. Safe. -/
  | notModelled (mnemonic : String)
  deriving DecidableEq, Repr

/-- Inputs of a host that has done nothing yet (log 5, log 6, log 7). -/
def Inputs.quiet : Inputs :=
  { stopReq := false, isOpen := [], keyHeld := [], waitKey := [], randByte := [], draws := 0 }

/-- The state after construction with an empty ROM, the default font and no display (R40, R280, R284; log 1, log 2, log 4):
no memory cell differs from what construction put there, so none is listed. -/
def State.reset : State :=
  { mem := []
    v := Vector.replicate 16 0
    i := 0
    pc := 0x200
    stack := Vector.replicate 16 0
    sp := 0
    dt := 0
    st := 0
    fb := Vector.replicate 32 0
    progEnd := 0x200
    run := .running
    keyWait := none
    trace := []
    displayAttached := false
    inputs := Inputs.quiet }

end Sys2Proof.Machine
end

