-- ==== Sys2Proof/Machine/Memory.lean ====
section
/-! DEFINITION. Memory M (spec 20_memory.md): what construction leaves in it, reading and writing one byte, the word at an
address, blocks of bytes, and the range check every memory instruction makes first. -/

namespace Sys2Proof.Machine

/-- The conventional font (93_implementation_defined.md G1), the default value of the parameter FONT: glyphs 0 to 7.
PRESUMED, unsafe where a claim rests on a glyph's bytes (log 1). -/
def fontLow : List Byte :=
  [0xF0, 0x90, 0x90, 0x90, 0xF0] ++ [0x20, 0x60, 0x20, 0x20, 0x70] ++
  [0xF0, 0x10, 0xF0, 0x80, 0xF0] ++ [0xF0, 0x10, 0xF0, 0x10, 0xF0] ++
  [0x90, 0x90, 0xF0, 0x10, 0x10] ++ [0xF0, 0x80, 0xF0, 0x10, 0xF0] ++
  [0xF0, 0x80, 0xF0, 0x90, 0xF0] ++ [0xF0, 0x10, 0x20, 0x40, 0x40]

/-- Glyphs 8 to F of the conventional font (G1). PRESUMED (log 1). -/
def fontHigh : List Byte :=
  [0xF0, 0x90, 0xF0, 0x90, 0xF0] ++ [0xF0, 0x90, 0xF0, 0x10, 0xF0] ++
  [0xF0, 0x90, 0xF0, 0x90, 0x90] ++ [0xE0, 0x90, 0xE0, 0x90, 0xE0] ++
  [0xF0, 0x80, 0x80, 0x80, 0xF0] ++ [0xE0, 0x90, 0x90, 0x90, 0xE0] ++
  [0xF0, 0x80, 0xF0, 0x80, 0xF0] ++ [0xF0, 0x80, 0xF0, 0x80, 0x80]

/-- What an unlisted address reads as: the default font at FONT_BASE, 0 elsewhere (R40, R56; log 1). -/
def Memory.initial (a : Nat) : Byte := (fontLow ++ fontHigh).getD a 0

/-- `M[a]` (R11, R12). -/
def Memory.read : Memory → Nat → Byte
  | [], a => Memory.initial a
  | (k, b) :: m, a => if a = k then b else Memory.read m a

/-- Put `b` in front of cells above `a`, unless `a` reads as `b` unlisted. -/
def Memory.cell (a : Nat) (b : Byte) (m : Memory) : Memory :=
  if b = Memory.initial a then m else (a, b) :: m

/-- `M[a] <- b` (R12), keeping the canonical form. -/
def Memory.write : Memory → Nat → Byte → Memory
  | [], a, b => Memory.cell a b []
  | (k, c) :: m, a, b =>
    if a < k then Memory.cell a b ((k, c) :: m)
    else if a = k then Memory.cell a b m
    else (k, c) :: Memory.write m a b

/-- Cells above `lo` with rising addresses below MEM_SIZE, none equal to what it reads as unlisted. -/
def Memory.wfFrom (lo : Nat) : Memory → Bool
  | [] => true
  | (k, b) :: m =>
    decide (lo ≤ k) && decide (k < Config.memSize) && decide (b ≠ Memory.initial k) && Memory.wfFrom (k + 1) m

/-- The canonical form of memory. -/
def Memory.wf (m : Memory) : Bool := Memory.wfFrom 0 m

/-- The big-endian word at `a` (R51): `M[a] ++ M[a+1]`. -/
def Memory.readWord (m : Memory) (a : Nat) : Word := wordOf (m.read a) (m.read (a + 1))

/-- The `n` bytes at `a`, `a+1`, … in order (R52). -/
def Memory.readBlock (m : Memory) (a : Nat) : Nat → List Byte
  | 0 => []
  | n + 1 => m.read a :: Memory.readBlock m (a + 1) n

/-- Write bytes at `a`, `a+1`, … in order (R52). -/
def Memory.writeBlock (m : Memory) (a : Nat) : List Byte → Memory
  | [] => m
  | b :: bs => Memory.writeBlock (m.write a b) (a + 1) bs

/-- `CheckRange(base, count)` of R12 passes: the block is empty or ends at or below 0xFFF. Addresses never wrap (R54, R216). -/
def inRange (base count : Nat) : Bool :=
  decide (count = 0) || decide (base + count - 1 ≤ 0xFFF)

end Sys2Proof.Machine
end

