-- ==== Sys2Proof/Machine/Screen.lean ====
section
/-! DEFINITION. The framebuffer and the sprite XOR blitter (spec 43_display.md R190 to R194), pixel by pixel as the rule of
Dxyn has it. -/

namespace Sys2Proof.Machine

/-- `FB[r][c]` (R11, R34): the pixel at row `r`, column `c`. -/
def pixel (fb : Framebuffer) (r : Fin 32) (c : Fin 64) : Bool := fb[r].getMsbD c

/-- `FB[r][c] <- FB[r][c] ^ 1` (R192). -/
def togglePixel (fb : Framebuffer) (r : Fin 32) (c : Fin 64) : Framebuffer :=
  fb.set r (fb[r] ^^^ BitVec.twoPow 64 (63 - c.val))

/-- The all-zero framebuffer (R191). -/
def clearFb : Framebuffer := Vector.replicate 32 0

/-- One sprite pixel at row `row`, column `col`: a clear bit and a target outside the 32 x 64 bounds draw nothing and set no
flag (R194: clipped, not wrapped); otherwise the pixel is toggled, and a pixel that was on collides (R193). -/
def plotPixel (acc : Framebuffer × Bool) (bit : Bool) (row col : Nat) : Framebuffer × Bool :=
  if h : bit = true ∧ row < 32 ∧ col < 64 then
    (togglePixel acc.1 ⟨row, h.2.1⟩ ⟨col, h.2.2⟩, acc.2 || pixel acc.1 ⟨row, h.2.1⟩ ⟨col, h.2.2⟩)
  else acc

/-- The first `k` of a sprite byte's eight pixels, most significant bit first, from column `cx` (R9, R192). -/
def plotBits (b : Byte) (row cx : Nat) (acc : Framebuffer × Bool) : Nat → Framebuffer × Bool
  | 0 => acc
  | k + 1 => plotPixel (plotBits b row cx acc k) (b.getMsbD k) row (cx + k)

/-- The sprite's rows from `row` down, each one byte (R192). -/
def plotRows (cx : Nat) : Nat → List Byte → Framebuffer × Bool → Framebuffer × Bool
  | _, [], acc => acc
  | row, b :: bs, acc => plotRows cx (row + 1) bs (plotBits b row cx acc 8)

/-- The anchor column, V[x] mod 64: wrap applied once (R194). -/
def anchorColumn (vx : Byte) : Nat := vx.toNat % Config.fbWidth

/-- The anchor row, V[y] mod 32 (R194). -/
def anchorRow (vy : Byte) : Nat := vy.toNat % Config.fbHeight

/-- Draw sprite bytes at the anchor the coordinates give: the new framebuffer and whether a pixel was turned off (R192). -/
def drawSprite (fb : Framebuffer) (vx vy : Byte) (bytes : List Byte) : Framebuffer × Bool :=
  plotRows (anchorColumn vx) (anchorRow vy) bytes (fb, false)

end Sys2Proof.Machine
end

