-- ==== Sys2Proof/Machine/Ops.lean ====
section
/-! DEFINITION. The named operations every rule uses: reading and writing a register, the call stack, output events, ending the
run, taking a fault, the collaborators' answers and the timer tick. -/

namespace Sys2Proof.Machine

/-! Registers (R11). -/

/-- `V[x]`. -/
def State.getV (s : State) (x : RegIx) : Byte := s.v[x]

/-- `V[x] <- b`. -/
def State.setV (s : State) (x : RegIx) (b : Byte) : State := { s with v := s.v.set x b }

/-- All sixteen variable registers at once. -/
def State.setVs (s : State) (v : Vector Byte 16) : State := { s with v := v }

/-- `I <- w`: never range-checked when written (R27). -/
def State.setI (s : State) (w : Word) : State := { s with i := w }

/-- `PC <- w`: no alignment check and no mask (R140). -/
def State.setPc (s : State) (w : Word) : State := { s with pc := w }

/-- `DT <- b`. -/
def State.setDt (s : State) (b : Byte) : State := { s with dt := b }

/-- `ST <- b`. -/
def State.setSt (s : State) (b : Byte) : State := { s with st := b }

/-- Replace memory. -/
def State.setMem (s : State) (m : Memory) : State := { s with mem := m }

/-- Replace the framebuffer. -/
def State.setFb (s : State) (fb : Framebuffer) : State := { s with fb := fb }

/-- `KeyWait <- k` (R36). -/
def State.setKeyWait (s : State) (k : Option RegIx) : State := { s with keyWait := k }

/-- Replace the inputs: an answer has been taken. -/
def State.setInputs (s : State) (inp : Inputs) : State := { s with inputs := inp }

/-- `emit e` (R13, R41): the event is appended, so that the trace is in program order. -/
def State.emit (s : State) (e : Event) : State := { s with trace := s.trace ++ [e] }

/-- A skip whose condition `c` holds adds 2 more to PC (R25). -/
def State.skipIf (s : State) (c : Bool) : State := s.setPc (if c then s.pc + 2 else s.pc)

/-! The call stack (R29): SP is the next free slot. -/

/-- `S[SP] <- ra; SP <- SP + 1`, or nothing when SP = 16 (R143). -/
def State.push (s : State) (ra : Word) : Option State :=
  if h : s.sp.val < 16 then
    some { s with stack := s.stack.set s.sp.val ra, sp := ⟨s.sp.val + 1, by omega⟩ }
  else none

/-- `SP <- SP - 1` and the word at S[SP], which keeps its value (R30), or nothing when SP = 0 (R141). -/
def State.pop (s : State) : Option (Word × State) :=
  if h : 0 < s.sp.val then
    some (s.stack[s.sp.val - 1]'(by omega), { s with sp := ⟨s.sp.val - 1, by omega⟩ })
  else none

/-! Ending the run. A Stopped machine is final (R35, R261): there is no return from a fault, so none stands here. -/

/-- `stop(reason)` (R13). -/
def State.stop (s : State) (reason : StopReason) : State := { s with run := .stopped reason }

/-- Take a fault (R13, R250, R260): Run becomes Stopped(Fault(record)); nothing is saved, control goes nowhere. -/
def State.raise (s : State) (cause : FaultCause) (addr : Word) (raw : Option Word) : State :=
  s.stop (.fault { cause := cause, addr := addr, raw := raw })

/-- The address of the executing instruction: PC holds a + 2 during Execute (R24). -/
def State.insnAddr (s : State) : Word := s.pc - 2

/-- An instruction's own bounds fault: no write of it has taken effect, PC keeps a + 2, and the record holds its address and
its word (R252 to R254, R256; log 9). -/
def State.raiseFrom (s : State) (instr : Instr) (cause : FaultCause) : State :=
  s.raise cause s.insnAddr (some (encode instr))

/-! The collaborators' answers (R263 to R267; log 6). A query takes the oldest answer the host has queued; where none is
queued, the host still must answer (R269), and the answer is a free value of Config at the draw counter. -/

/-- The inputs after one unscripted draw. -/
def Inputs.drawn (inp : Inputs) : Inputs := { inp with draws := inp.draws + 1 }

/-- `draw IsOpen` (R263). -/
def State.drawIsOpen (s : State) : Bool × State :=
  match s.inputs.isOpen with
  | b :: bs => (b, s.setInputs { s.inputs with isOpen := bs })
  | [] => (Config.isOpen s.inputs.draws, s.setInputs s.inputs.drawn)

/-- `draw KeyHeld(k)` (R264). -/
def State.drawKeyHeld (s : State) (k : Key) : Bool × State :=
  match s.inputs.keyHeld with
  | b :: bs => (b, s.setInputs { s.inputs with keyHeld := bs })
  | [] => (Config.keyHeld s.inputs.draws k, s.setInputs s.inputs.drawn)

/-- `draw RandByte` (R267). -/
def State.drawRandByte (s : State) : Byte × State :=
  match s.inputs.randByte with
  | b :: bs => (b, s.setInputs { s.inputs with randByte := bs })
  | [] => (Config.randByte s.inputs.draws, s.setInputs s.inputs.drawn)

/-- Which of a pending stop and a pending wait answer resolves a key wait: a free value (R240, U17; log 8). -/
def State.drawStopBeforeKey (s : State) : Bool × State :=
  (Config.stopBeforeKey s.inputs.draws, s.setInputs s.inputs.drawn)

/-! The timer tick (R120 to R122). -/

/-- A timer counts down while it is nonzero and never below 0 (R121). -/
def countDown (b : Byte) : Byte := if b = 0 then b else b - 1

/-- The delay timer's tick (R121). -/
def State.tickDelay (s : State) : State := s.setDt (countDown s.dt)

/-- The sound timer's tick: one play trigger while it was nonzero (R122, R268). -/
def State.tickSound (s : State) : State :=
  if s.st = 0 then s else (s.setSt (countDown s.st)).emit .tone

/-- `TimerTick()` (R122). -/
def State.timerTick (s : State) : State := s.tickDelay.tickSound

end Sys2Proof.Machine
end

