-- ==== Sys2Proof/Machine/Operands.lean ====
section
/-! DEFINITION. Operand forms (spec 30_encoding.md R82, R91): how each operand's field becomes the value a rule computes with.
A register operand is `State.getV`; an 8-bit immediate is used as it is. -/

namespace Sys2Proof.Machine

/-- `zext_16(nnn)` (R82). -/
def addrOperand (nnn : Addr12) : Word := nnn.setWidth 16

/-- `zext_16(v)` of a register value (R148, R211). -/
def zext16 (b : Byte) : Word := b.setWidth 16

/-- The key a register value names, if it names one (R233). -/
def keyOperand (b : Byte) : Option Key := if h : b.toNat < 16 then some ⟨b.toNat, h⟩ else none

/-- The address of glyph `b`: FONT_BASE + 5 * zext_16(b), not masked (R212; 90_conflicts.md C3). -/
def glyphAddress (b : Byte) : Word := BitVec.ofNat 16 (Config.fontBase + Config.glyphBytes * b.toNat)

/-- The three decimal digits, most significant first (R213). -/
def bcdDigits (b : Byte) : List Byte :=
  [BitVec.ofNat 8 (b.toNat / 100), BitVec.ofNat 8 (b.toNat / 10 % 10), BitVec.ofNat 8 (b.toNat % 10)]

/-- How many registers Fx55 and Fx65 move: V0 to Vx (R214, R215). -/
def regCount (x : RegIx) : Nat := x.val + 1

/-- V0 to V[n-1], in order (R214). -/
def State.regBlock (s : State) (n : Nat) : List Byte := s.v.toList.take n

/-- Registers `k`, `k+1`, … take the bytes in order (R215). -/
def loadBlock (v : Vector Byte 16) (k : Nat) : List Byte → Vector Byte 16
  | [] => v
  | b :: bs => loadBlock (v.setIfInBounds k b) (k + 1) bs

end Sys2Proof.Machine
end

