-- ==== Sys2Proof/Machine/Flags.lean ====
section
/-! DEFINITION. Flag computations (spec 10_state.md R22, R39; 42_alu.md R160, R167 to R171): the one flag is VF. -/

namespace Sys2Proof.Machine

/-- VF, the flag register: V[15] (R11, R22). -/
def flagReg : RegIx := 15

/-- A flag is the number 1 or 0 (R10). -/
def flagByte (b : Bool) : Byte := if b then 1 else 0

/-- 8xy4: the 9-bit sum exceeds 255 (R167). -/
def carry (a b : Byte) : Bool := decide (255 < a.toNat + b.toNat)

/-- 8xy5 and 8xy7: minuend at least subtrahend (R168, R170; 90_conflicts.md C2). -/
def notBorrow (minuend subtrahend : Byte) : Bool := decide (subtrahend.toNat ≤ minuend.toNat)

/-- 8xy6: the bit shifted out to the right, bit 0 (R169). -/
def shiftedOutRight (b : Byte) : Bool := b.getLsbD 0

/-- 8xyE: the bit shifted out to the left, bit 7 (R171). -/
def shiftedOutLeft (b : Byte) : Bool := b.getLsbD 7

/-- The result into V[x] first, the flag into VF last, so that the flag wins when x = F (R160). -/
def State.setResult (s : State) (x : RegIx) (result : Byte) (flag : Bool) : State :=
  (s.setV x result).setV flagReg (flagByte flag)

end Sys2Proof.Machine
end

