-- ==== Sys2Proof/Machine/Display.lean ====
section
/-! DEFINITION. Framebuffer instructions (spec 43_display.md). Each emits one Render with a copy of the framebuffer after its
writes (R190). -/

namespace Sys2Proof.Machine

/-- CLS (R191). -/
def execCls (s : State) : Host.Outcome State Fault Refusal :=
  .next ((s.setFb clearFb).emit (.render clearFb))

/-- DRW Vx, Vy, n (R192 to R195): the coordinates are read first, VF is written last, all n bytes are range-checked and read
whether their rows are clipped or not; n = 0 checks and draws nothing. -/
def execDrw (x y : RegIx) (n : Nat) (s : State) : Host.Outcome State Fault Refusal :=
  if inRange s.i.toNat n then
    let drawn := drawSprite s.fb (s.getV x) (s.getV y) (s.mem.readBlock s.i.toNat n)
    .next (((s.setFb drawn.1).setV flagReg (flagByte drawn.2)).emit (.render drawn.1))
  else .next (s.raiseFrom (.drw x y n) (.memRange s.i n))

end Sys2Proof.Machine
end

