-- ==== Sys2Proof/Machine/Flow.lean ====
section
/-! DEFINITION. Control flow (spec 41_flow.md). Every meaning runs with PC = a + 2 (R114). -/

namespace Sys2Proof.Machine

/-- RET (R141). -/
def execRet (s : State) : Host.Outcome State Fault Refusal :=
  match s.pop with
  | some (ra, t) => .next (t.setPc ra)
  | none => .next (s.raiseFrom .ret (.stackUnderflow s.sp.val))

/-- JP nnn (R142). -/
def execJp (nnn : Addr12) (s : State) : Host.Outcome State Fault Refusal :=
  .next (s.setPc (addrOperand nnn))

/-- CALL nnn (R143): pushes the fetch-advanced PC. -/
def execCall (nnn : Addr12) (s : State) : Host.Outcome State Fault Refusal :=
  match s.push s.pc with
  | some t => .next (t.setPc (addrOperand nnn))
  | none => .next (s.raiseFrom (.call nnn) (.stackOverflow s.sp.val))

/-- SE Vx, nn (R144). -/
def execSeImm (x : RegIx) (nn : Byte) (s : State) : Host.Outcome State Fault Refusal :=
  .next (s.skipIf (s.getV x == nn))

/-- SNE Vx, nn (R145). -/
def execSneImm (x : RegIx) (nn : Byte) (s : State) : Host.Outcome State Fault Refusal :=
  .next (s.skipIf (s.getV x != nn))

/-- SE Vx, Vy (R146). -/
def execSeReg (x y : RegIx) (s : State) : Host.Outcome State Fault Refusal :=
  .next (s.skipIf (s.getV x == s.getV y))

/-- SNE Vx, Vy (R147). -/
def execSneReg (x y : RegIx) (s : State) : Host.Outcome State Fault Refusal :=
  .next (s.skipIf (s.getV x != s.getV y))

/-- JP V0, nnn (R148): always V0, no wrap to 12 bits. -/
def execJpV0 (nnn : Addr12) (s : State) : Host.Outcome State Fault Refusal :=
  .next (s.setPc (addrOperand nnn + zext16 (s.getV 0)))

end Sys2Proof.Machine
end

