-- ==== Sys2Proof/Machine/Index.lean ====
section
/-! DEFINITION. Index register and memory instructions (spec 44_index_memory.md). The memory instructions check their whole
block before the first access and leave I unchanged (R216). -/

namespace Sys2Proof.Machine

/-- LD I, nnn (R210). -/
def execLdI (nnn : Addr12) (s : State) : Host.Outcome State Fault Refusal :=
  .next (s.setI (addrOperand nnn))

/-- ADD I, Vx (R211): wraps modulo 65536, VF unchanged. -/
def execAddI (x : RegIx) (s : State) : Host.Outcome State Fault Refusal :=
  .next (s.setI (s.i + zext16 (s.getV x)))

/-- LD F, Vx (R212). -/
def execLdF (x : RegIx) (s : State) : Host.Outcome State Fault Refusal :=
  .next (s.setI (glyphAddress (s.getV x)))

/-- LD B, Vx (R213). -/
def execLdB (x : RegIx) (s : State) : Host.Outcome State Fault Refusal :=
  if inRange s.i.toNat 3 then
    .next (s.setMem (s.mem.writeBlock s.i.toNat (bcdDigits (s.getV x))))
  else .next (s.raiseFrom (.ldB x) (.memRange s.i 3))

/-- LD [I], Vx (R214): V0 to Vx into memory. -/
def execStoreRegs (x : RegIx) (s : State) : Host.Outcome State Fault Refusal :=
  if inRange s.i.toNat (regCount x) then
    .next (s.setMem (s.mem.writeBlock s.i.toNat (s.regBlock (regCount x))))
  else .next (s.raiseFrom (.storeRegs x) (.memRange s.i (regCount x)))

/-- LD Vx, [I] (R215): memory into V0 to Vx. -/
def execLoadRegs (x : RegIx) (s : State) : Host.Outcome State Fault Refusal :=
  if inRange s.i.toNat (regCount x) then
    .next (s.setVs (loadBlock s.v 0 (s.mem.readBlock s.i.toNat (regCount x))))
  else .next (s.raiseFrom (.loadRegs x) (.memRange s.i (regCount x)))

end Sys2Proof.Machine
end

