-- ==== Sys2Proof/Machine/Timers.lean ====
section
/-! DEFINITION. Timer access and key instructions (spec 45_timers_keys.md). -/

namespace Sys2Proof.Machine

/-- LD Vx, DT (R230). -/
def execLdVxDt (x : RegIx) (s : State) : Host.Outcome State Fault Refusal :=
  .next (s.setV x s.dt)

/-- LD DT, Vx (R231). -/
def execLdDtVx (x : RegIx) (s : State) : Host.Outcome State Fault Refusal :=
  .next (s.setDt (s.getV x))

/-- LD ST, Vx (R232). -/
def execLdStVx (x : RegIx) (s : State) : Host.Outcome State Fault Refusal :=
  .next (s.setSt (s.getV x))

/-- SKP Vx (R233, R234): a value above 0xF faults and asks nothing. -/
def execSkp (x : RegIx) (s : State) : Host.Outcome State Fault Refusal :=
  match keyOperand (s.getV x) with
  | some k => .next ((s.drawKeyHeld k).2.skipIf (s.drawKeyHeld k).1)
  | none => .next (s.raiseFrom (.skp x) (.keyRange (s.getV x)))

/-- SKNP Vx (R233, R235). -/
def execSknp (x : RegIx) (s : State) : Host.Outcome State Fault Refusal :=
  match keyOperand (s.getV x) with
  | some k => .next ((s.drawKeyHeld k).2.skipIf (!(s.drawKeyHeld k).1))
  | none => .next (s.raiseFrom (.sknp x) (.keyRange (s.getV x)))

/-- LD Vx, K (R236): only records the suspension; the wait resolves in `resolveWait`. -/
def execLdVxK (x : RegIx) (s : State) : Host.Outcome State Fault Refusal :=
  .next (s.setKeyWait (some x))

end Sys2Proof.Machine
end

