-- ==== Sys2Proof/Machine/Cycle.lean ====
section
/-! DEFINITION. The Run Loop iteration (spec 40_cycle.md R110 to R123), the resolution of a key wait (45_timers_keys.md R237 to
R240), construction (70_reset_and_hazards.md R280, R281) and what the host does between steps (60_exceptions.md R269). -/

namespace Sys2Proof.Machine

/-! The iteration. -/

/-- The loop head: the stop latch first (R111), then, when a display is attached, its open status (R112). The state passes if
it is still Running. -/
def loopHead (s : State) : State :=
  if s.inputs.stopReq then s.stop .stopSignal
  else if s.displayAttached then
    (if s.drawIsOpen.1 then s.drawIsOpen.2 else s.drawIsOpen.2.stop .displayClosed)
  else s

/-- Fetch (R113, R114): the word and the state with PC advanced, or no word and the state that has stopped: end of program for
every PC at or past ProgEnd, FETCH_RANGE where the second byte is past memory. -/
def fetch (s : State) : Option Word × State :=
  if s.progEnd ≤ s.pc.toNat then (none, s.stop .endOfProgram)
  else if 0xFFF < s.pc.toNat + 1 then (none, s.raise (.fetchRange s.pc) s.pc none)
  else (some (s.mem.readWord s.pc.toNat), s.setPc (s.pc + 2))

/-- The end of an iteration: the timer tick, if Execute completed; none if it faulted or suspended (R118, R120). -/
def endIteration (s : State) : State :=
  match s.run, s.keyWait with
  | .running, none => s.timerTick
  | _, _ => s

/-- `endIteration` on the next state of Execute. -/
def finish (o : Host.Outcome State Fault Refusal) : Host.Outcome State Fault Refusal :=
  match o with
  | .next s => .next (endIteration s)
  | .fault r => .fault r
  | .refused r => .refused r

/-- Decode and Execute the fetched word, PC advanced: a word that names no instruction is a DecodeError (R115, R251). -/
def decodeExecute (raw : Word) (s : State) : Host.Outcome State Fault Refusal :=
  match decodeWord raw with
  | .ok i => finish (exec i s)
  | .error _ => .next (s.raise (.decodeError raw) s.insnAddr (some raw))

/-- What follows a loop head that has passed: fetch, decode, execute, tick. -/
def fetchDecodeExecute (s : State) : Host.Outcome State Fault Refusal :=
  match fetch s with
  | (some raw, t) => decodeExecute raw t
  | (none, t) => .next t

/-- One iteration (R110), for a Running machine that is not suspended. -/
def iteration (s : State) : Host.Outcome State Fault Refusal :=
  match (loopHead s).run with
  | .running => fetchDecodeExecute (loopHead s)
  | .stopped _ => .next (loopHead s)

/-! The key wait. -/

/-- The stop latch is set during the wait (R239). -/
def waitStopped (s : State) : State := (s.setKeyWait none).stop .stopSignal

/-- The wait returns an answer: a key completes the instruction and runs its deferred tick (R237), "no key" stops (R238). -/
def waitAnswered (x : RegIx) (a : WaitAnswer) (s : State) : State :=
  match a with
  | .key k => ((s.setV x (BitVec.ofNat 8 k.val)).setKeyWait none).timerTick
  | .noKey => (s.setKeyWait none).stop .keyWaitCancelled

/-- A delivered answer is taken from the queue, then acted on. -/
def takeWaitAnswer (x : RegIx) (a : WaitAnswer) (rest : List WaitAnswer) (s : State) : State :=
  waitAnswered x a (s.setInputs { s.inputs with waitKey := rest })

/-- A suspended machine (R36, R240): with nothing pending it stays as it is, which may last forever; with both a stop and an
answer pending either may resolve the wait, as the free value has it. -/
def resolveWait (x : RegIx) (s : State) : State :=
  match s.inputs.stopReq, s.inputs.waitKey with
  | false, [] => s
  | true, [] => waitStopped s
  | false, a :: rest => takeWaitAnswer x a rest s
  | true, a :: rest =>
    if s.drawStopBeforeKey.1 then waitStopped s.drawStopBeforeKey.2
    else takeWaitAnswer x a rest s.drawStopBeforeKey.2

/-! Construction. -/

/-- "fatal at construction" (R257, R281): no machine exists. -/
inductive LoadError where
  | unreadable
  | tooLarge
  deriving DecidableEq, Repr

/-- `Construct(ROM, FONT, DISPLAY_ATTACHED)` (R280): `none` is an unreadable ROM. FONT bytes that differ from the default, and
ROM bytes that are not 0, become listed cells. -/
def State.construct (rom : Option (List Byte)) (font : Vector Byte 80) (displayAttached : Bool) :
    Except LoadError State :=
  match rom with
  | none => .error .unreadable
  | some bytes =>
    if romFits bytes then
      .ok { State.reset with
        mem := Memory.writeBlock (Memory.writeBlock [] Config.fontBase font.toList) Config.progStart bytes
        progEnd := Config.progStart + bytes.length
        displayAttached := displayAttached }
    else .error .tooLarge

/-! The host. -/

/-- What the host may do between two steps (R269): set the stop latch, which it never clears (R266), or answer. -/
inductive HostAct where
  | requestStop
  | answerIsOpen (b : Bool)
  | answerKeyHeld (b : Bool)
  | answerWait (a : WaitAnswer)
  | answerRandByte (b : Byte)
  deriving DecidableEq, Repr

/-- The inputs after a host action: an answer joins the end of its queue. -/
def Inputs.act (inp : Inputs) : HostAct → Inputs
  | .requestStop => { inp with stopReq := true }
  | .answerIsOpen b => { inp with isOpen := inp.isOpen ++ [b] }
  | .answerKeyHeld b => { inp with keyHeld := inp.keyHeld ++ [b] }
  | .answerWait a => { inp with waitKey := inp.waitKey ++ [a] }
  | .answerRandByte b => { inp with randByte := inp.randByte ++ [b] }

/-- A host action changes the inputs and nothing else: no collaborator writes core state (R60, R269). -/
def hostAct (a : HostAct) (s : State) : State := s.setInputs (s.inputs.act a)

/-! Placing a word where the next fetch reads it, for `State.withFetchWord` (log 2). -/

/-- The inputs under which the next loop head passes: no stop request, and an attached display that answers open. -/
def Inputs.passLoopHead (inp : Inputs) (attached : Bool) : Inputs :=
  { inp with stopReq := false, isOpen := if attached then true :: inp.isOpen else inp.isOpen }

/-- Where the next word is fetched: PC, or PROG_START if no word fits at PC. -/
def fetchAddr (s : State) : Word := if s.pc.toNat + 1 ≤ 0xFFF then s.pc else BitVec.ofNat 16 Config.progStart

/-- Store a word where the next step fetches and let that step's fetch succeed: Running, not suspended, the loop head passing,
and the program's extent reaching past the word. -/
def State.placeWord (s : State) (w : Word) : State :=
  { s with
    mem := Memory.writeBlock s.mem (fetchAddr s).toNat [highByte w, lowByte w]
    pc := fetchAddr s
    progEnd := max s.progEnd ((fetchAddr s).toNat + 2)
    run := .running
    keyWait := none
    inputs := s.inputs.passLoopHead s.displayAttached }

end Sys2Proof.Machine
end

