-- ==== Sys2Proof/Machine/Step.lean ====
section
/-! DEFINITION. One step of the machine: an iteration, or the key wait, or no step at all (spec 40_cycle.md R110, R117). -/

namespace Sys2Proof.Machine

/-- A Stopped machine takes no step (R35, R110); a suspended one only resolves its wait (R117, R240); otherwise an iteration. -/
def step (s : State) : Host.Outcome State Fault Refusal :=
  match s.run with
  | .stopped r => .fault (.stopped r)
  | .running =>
    match s.keyWait with
    | some x => .next (resolveWait x s)
    | none => iteration s

/-- `s` with a table word stored where the next step fetches (log 2): the bits of `w` above `nbits` are zero. -/
def State.withFetchWord (s : State) (nbits w : Nat) : State :=
  s.placeWord (BitVec.ofNat 16 (w % 2 ^ nbits))

end Sys2Proof.Machine
end

