-- ==== Sys2Proof/Safety.lean ====
section
/-! DEFINITION. The terms claims use: the state a step answers, an iteration that is about to fetch, the invariant of every
machine that construction, the host and the step can make, the pixels a sprite covers, and the runs in which the host acts between steps. -/

namespace Sys2Proof.Machine

/-- The state an outcome answers, if it answers one. -/
def nextState (o : Host.Outcome State Fault Refusal) : Option State :=
  match o with
  | .next s => some s
  | .fault _ => none
  | .refused _ => none

/-- The loop head passes: Running, not suspended, no stop request, and no attached display that answers closed (R110 to R112). -/
def State.passesLoopHead (s : State) : Bool :=
  decide (s.run = .running) && decide (s.keyWait = none) && !s.inputs.stopReq &&
    (!s.displayAttached || s.drawIsOpen.1)

/-- The state a passed loop head leaves: an answer of an attached display has been taken. -/
def State.afterLoopHead (s : State) : State := if s.displayAttached then s.drawIsOpen.2 else s

/-- A word can be fetched at PC: it is inside the program's extent and both bytes are in memory (R113, R114). -/
def State.canFetch (s : State) : Bool := decide (s.pc.toNat < s.progEnd) && decide (s.pc.toNat + 1 ≤ 0xFFF)

/-- The invariant: memory in its canonical form, ProgEnd in 0x200..0x1000 (R33), PC at most 0x10FE (R26), every return address
at most 0x1000 (D3), and a suspended machine is Running (R36, R110). -/
structure State.Inv (s : State) : Prop where
  mem : s.mem.wf = true
  progEndLow : 0x200 ≤ s.progEnd
  progEndHigh : s.progEnd ≤ 0x1000
  pc : s.pc.toNat ≤ 0x10FE
  stack : ∀ k : Fin 16, s.stack[k].toNat ≤ 0x1000
  waiting : s.keyWait ≠ none → s.run = .running

/-- Whether the sprite whose rows start at `row` and whose columns start at `cx` has a set bit on pixel (r, c). -/
def covers (cx row : Nat) (bytes : List Byte) (r : Fin 32) (c : Fin 64) : Bool :=
  decide (row ≤ r.val ∧ cx ≤ c.val) && (bytes.getD (r.val - row) 0).getMsbD (c.val - cx)

/-- The states of a machine built by construction, as it steps and the host acts (R110, R269, R280). -/
inductive Reachable : State → Prop where
  | construct {rom : Option (List Byte)} {font : Vector Byte 80} {attached : Bool} {s : State} :
      State.construct rom font attached = .ok s → Reachable s
  | step {s t : State} : Reachable s → Machine.step s = .next t → Reachable t
  | host {s : State} (a : HostAct) : Reachable s → Reachable (hostAct a s)

end Sys2Proof.Machine
end

