-- ==== Sys2Proof/Certificates/Slice0/Obligations.lean ====
section
/-! DEFINITION. The statements for the provers. Each docstring says which statement of the spec it formalises. -/

namespace Sys2Proof.Spec

/-- The "writes V" column of 10_state.md R23: Fx0A writes Vx only when its key arrives, so nothing at Execute. -/
def writesV : Instr → RegIx → Bool
  | .cls, _ => false
  | .ret, _ => false
  | .jp _, _ => false
  | .call _, _ => false
  | .seImm _ _, _ => false
  | .sneImm _ _, _ => false
  | .seReg _ _, _ => false
  | .sneReg _ _, _ => false
  | .ldImm x _, r => r == x
  | .addImm x _, r => r == x
  | .ldReg x _, r => r == x
  | .orReg x _, r => r == x
  | .andReg x _, r => r == x
  | .xorReg x _, r => r == x
  | .addReg x _, r => r == x || r == 15
  | .sub x _, r => r == x || r == 15
  | .shr x _, r => r == x || r == 15
  | .subn x _, r => r == x || r == 15
  | .shl x _, r => r == x || r == 15
  | .ldI _, _ => false
  | .jpV0 _, _ => false
  | .rnd x _, r => r == x
  | .drw _ _ _, r => r == 15
  | .skp _, _ => false
  | .sknp _, _ => false
  | .ldVxDt x, r => r == x
  | .ldVxK _, _ => false
  | .ldDtVx _, _ => false
  | .ldStVx _, _ => false
  | .addI _, _ => false
  | .ldF _, _ => false
  | .ldB _, _ => false
  | .storeRegs _, _ => false
  | .loadRegs x, r => decide (r ≤ x)

/-- The "reads V" column of 10_state.md R23. -/
def readsV : Instr → RegIx → Bool
  | .cls, _ => false
  | .ret, _ => false
  | .jp _, _ => false
  | .call _, _ => false
  | .seImm x _, r => r == x
  | .sneImm x _, r => r == x
  | .seReg x y, r => r == x || r == y
  | .sneReg x y, r => r == x || r == y
  | .ldImm _ _, _ => false
  | .addImm x _, r => r == x
  | .ldReg _ y, r => r == y
  | .orReg x y, r => r == x || r == y
  | .andReg x y, r => r == x || r == y
  | .xorReg x y, r => r == x || r == y
  | .addReg x y, r => r == x || r == y
  | .sub x y, r => r == x || r == y
  | .shr x _, r => r == x
  | .subn x y, r => r == x || r == y
  | .shl x _, r => r == x
  | .ldI _, _ => false
  | .jpV0 _, r => r == 0
  | .rnd _ _, _ => false
  | .drw x y _, r => r == x || r == y
  | .skp x, r => r == x
  | .sknp x, r => r == x
  | .ldVxDt _, _ => false
  | .ldVxK _, _ => false
  | .ldDtVx x, r => r == x
  | .ldStVx x, r => r == x
  | .addI x, r => r == x
  | .ldF x, r => r == x
  | .ldB x, r => r == x
  | .storeRegs x, r => decide (r ≤ x)
  | .loadRegs _, _ => false

/-- How many bytes from `M[I]` up an instruction stores (20_memory.md R52): 3 for Fx33, x + 1 for Fx55, none otherwise. -/
def storedBytes (i : Instr) : Nat :=
  match i with
  | .ldB _ => 3
  | .storeRegs x => x.val + 1
  | _ => 0

end Sys2Proof.Spec

open Sys2Proof Sys2Proof.Machine

/-- For every well-formed instruction of all 34 constructors, with every operand at every value its field admits,
decodeWord (encode i) is i. Derived from 30_encoding.md section 1 (operand fields, formats), 30_encoding.md section 2
(opcode table). -/
def Obligations.DecodeInvertsEncode : Prop :=
  ∀ i : Instr, i.wf = true → decodeWord (encode i) = .ok i

/-- For every word w and instruction i, if w decodes to i then i is well-formed and encode i is w: no bit of a legal word
is dropped, so the word a fault records with encode is the fetched word. Derived from 30_encoding.md section 1
(operand fields), 30_encoding.md section 2 (opcode table), 60_exceptions.md section 1 (the recorded raw word). -/
def Obligations.EncodeInvertsDecode : Prop :=
  ∀ (w : Word) (i : Instr), decodeWord w = .ok i → i.wf = true ∧ encode i = w

/-- The opcode table has 34 rows; no word matches two different rows; and for every word and every row, the word matches
the row exactly when it decodes to an instruction of that row. States R86. -/
def Obligations.DecodeFollowsOpcodeTable : Prop :=
  opcodeTable.length = 34 ∧
  (∀ r ∈ opcodeTable, ∀ r' ∈ opcodeTable, ∀ w : Word,
    w &&& r.mask = r.value → w &&& r'.mask = r'.value → r = r') ∧
  (∀ r ∈ opcodeTable, ∀ w : Word, w &&& r.mask = r.value ↔ ∃ i : Instr, decodeWord w = .ok i ∧ i.row = r)

/-- For every word: it is refused as family 0 iff it is below 0x1000 and neither 0x00E0 nor 0x00EE; as family 5 or 9 iff
its top nibble is 5 or 9 and its last nibble is not 0; as family 8 iff its top nibble is 8 and its last nibble is 8,
9, A, B, C, D or F; as family E iff its top nibble is E and its low byte is neither 9E nor A1; as family F iff its top
nibble is F and its low byte is none of the nine. (The word counts of the table are not stated.) Derived from
30_encoding.md section 3 (illegal encodings), 92_eei_decisions.md D20. -/
def Obligations.IllegalWordsAreTheSixSets : Prop :=
  ∀ w : Word,
    (decodeWord w = .error .family0 ↔ w.toNat / 0x1000 = 0x0 ∧ w ≠ 0x00E0#16 ∧ w ≠ 0x00EE#16) ∧
    (decodeWord w = .error .family5 ↔ w.toNat / 0x1000 = 0x5 ∧ w.toNat % 16 ≠ 0) ∧
    (decodeWord w = .error .family9 ↔ w.toNat / 0x1000 = 0x9 ∧ w.toNat % 16 ≠ 0) ∧
    (decodeWord w = .error .family8 ↔ w.toNat / 0x1000 = 0x8 ∧ w.toNat % 16 ∈ [0x8, 0x9, 0xA, 0xB, 0xC, 0xD, 0xF]) ∧
    (decodeWord w = .error .familyE ↔ w.toNat / 0x1000 = 0xE ∧ w.toNat % 256 ∉ [0x9E, 0xA1]) ∧
    (decodeWord w = .error .familyF ↔ w.toNat / 0x1000 = 0xF ∧
      w.toNat % 256 ∉ [0x07, 0x0A, 0x15, 0x18, 0x1E, 0x29, 0x33, 0x55, 0x65])

/-- At least one word of each of the sixteen first nibbles, and the sixteen decode vectors of the spec, decode to the
instruction the opcode table gives, or are refused where it gives none. Derived from 95_test_vectors.md section 2
(vectors DE-1 to DE-16), 30_encoding.md section 2 (opcode table). -/
def Obligations.SampleWordsDecode : Prop :=
  decodeWord 0x00E0#16 = .ok .cls ∧ decodeWord 0x00EE#16 = .ok .ret ∧ decodeWord 0x1208#16 = .ok (.jp 0x208#12) ∧
  decodeWord 0x2ABC#16 = .ok (.call 0xABC#12) ∧ decodeWord 0x3310#16 = .ok (.seImm 3 0x10#8) ∧
  decodeWord 0x4310#16 = .ok (.sneImm 3 0x10#8) ∧ decodeWord 0x5120#16 = .ok (.seReg 1 2) ∧
  decodeWord 0x7FFF#16 = .ok (.addImm 15 0xFF#8) ∧ decodeWord 0xD000#16 = .ok (.drw 0 0 0) ∧
  decodeWord 0x9120#16 = .ok (.sneReg 1 2) ∧ decodeWord 0x6A5C#16 = .ok (.ldImm 10 0x5C#8) ∧
  decodeWord 0x812E#16 = .ok (.shl 1 2) ∧ decodeWord 0xA22A#16 = .ok (.ldI 0x22A#12) ∧
  decodeWord 0xBFFF#16 = .ok (.jpV0 0xFFF#12) ∧ decodeWord 0xC30F#16 = .ok (.rnd 3 0x0F#8) ∧
  decodeWord 0xD015#16 = .ok (.drw 0 1 5) ∧ decodeWord 0xE1A1#16 = .ok (.sknp 1) ∧
  decodeWord 0xFF65#16 = .ok (.loadRegs 15) ∧ decodeWord 0x0000#16 = .error .family0 ∧
  decodeWord 0x5121#16 = .error .family5 ∧ decodeWord 0x8128#16 = .error .family8 ∧
  decodeWord 0x912F#16 = .error .family9 ∧ decodeWord 0xE19F#16 = .error .familyE ∧
  decodeWord 0xF108#16 = .error .familyF ∧ decodeWord 0x0123#16 = .error .family0 ∧
  decodeWord 0x00E1#16 = .error .family0 ∧ decodeWord 0x812F#16 = .error .family8

/-- For every memory and address the word read is M[a] * 256 + M[a+1], and decodeWord of it is decode of the two bytes.
Derived from 20_memory.md section 2 (byte order), 30_encoding.md section 1 (decode). -/
def Obligations.FetchedWordIsBigEndian : Prop :=
  ∀ (m : Memory) (a : Nat),
    (m.readWord a).toNat = (m.read a).toNat * 256 + (m.read (a + 1)).toNat ∧
    decodeWord (m.readWord a) = decode (m.read a) (m.read (a + 1))

/-- If the loop head passes, both bytes at PC can be fetched and they decode to i, then with e the state with PC advanced
by 2 (and an attached display's answer taken), exec i e answers a next state t, and the step answers t ticked if t is
Running and not suspended, and t as it is otherwise. Derived from 40_cycle.md section 1 (the iteration), 40_cycle.md
section 2 (fetch), 40_cycle.md section 3 (decode and dispatch), 40_cycle.md section 4 (timer tick). -/
def Obligations.StepRunsDecodedInstruction : Prop :=
  ∀ (s : State) (i : Instr), s.passesLoopHead = true → s.canFetch = true →
    decode (s.mem.read s.pc.toNat) (s.mem.read (s.pc.toNat + 1)) = .ok i →
    let e : State := { s with pc := s.pc + 2, inputs := s.afterLoopHead.inputs }
    ∃ t, exec i e = .next t ∧
      (t.run = .running → t.keyWait = none → step s = .next t.timerTick) ∧
      (t.run ≠ .running ∨ t.keyWait ≠ none → step s = .next t)

/-- A Running, unsuspended machine whose stop latch is set steps to the same state with Run = Stopped(StopSignal); no
answer of the display is taken. Derived from 40_cycle.md section 1 (stop signal check), 92_eei_decisions.md D21. -/
def Obligations.StopLatchStopsBeforeFetch : Prop :=
  ∀ s : State, s.run = .running → s.keyWait = none → s.inputs.stopReq = true →
    step s = .next { s with run := .stopped .stopSignal }

/-- For a Running, unsuspended machine with no stop request and a display attached: if the next queued answer is closed,
the step only takes that answer and stops as DisplayClosed; if none is queued, the free value at the draw counter
decides, the counter going up by one: open, and the iteration goes on to fetch; closed, and it stops as DisplayClosed.
With no display attached no step takes an answer from the display's queue. The queue and the free value are the
model's form of the oracle (log 6). Derived from 40_cycle.md section 1 (display-open check), 60_exceptions.md section
2 (IsOpen), log 6. -/
def Obligations.ClosedDisplayStopsAttachedMachine : Prop :=
  (∀ (s : State) (rest : List Bool), s.run = .running → s.keyWait = none → s.inputs.stopReq = false →
    s.displayAttached = true → s.inputs.isOpen = false :: rest →
    step s = .next { s with run := .stopped .displayClosed, inputs := { s.inputs with isOpen := rest } }) ∧
  (∀ s : State, s.run = .running → s.keyWait = none → s.inputs.stopReq = false →
    s.displayAttached = true → s.inputs.isOpen = [] →
    let asked : State := { s with inputs := { s.inputs with draws := s.inputs.draws + 1 } }
    step s = if Config.isOpen s.inputs.draws then fetchDecodeExecute asked
      else .next { asked with run := .stopped .displayClosed }) ∧
  (∀ s t : State, s.displayAttached = false → step s = .next t → t.inputs.isOpen = s.inputs.isOpen)

/-- If the loop head passes and PC is at or past ProgEnd, also at or past 0x1000, the step changes only Run, to
Stopped(EndOfProgram) (and takes an attached display's answer): no fetch, no tick. Derived from 40_cycle.md section 2
(end of program), 70_reset_and_hazards.md section 1 (empty program). -/
def Obligations.EndOfProgramStops : Prop :=
  ∀ s : State, s.passesLoopHead = true → s.progEnd ≤ s.pc.toNat →
    step s = .next { s with run := .stopped .endOfProgram, inputs := s.afterLoopHead.inputs }

/-- If the loop head passes, PC = 0xFFF and ProgEnd = 0x1000, the step changes only Run, to Stopped(Fault) with kind
FETCH_RANGE, address 0xFFF, no raw word, info PC (and takes an attached display's answer). States R255. -/
def Obligations.FetchPastMemoryFaults : Prop :=
  ∀ s : State, s.passesLoopHead = true → s.pc = 0xFFF#16 → s.progEnd = 0x1000 →
    step s = .next { s with
      run := .stopped (.fault { cause := .fetchRange 0xFFF#16, addr := 0xFFF#16, raw := none })
      inputs := s.afterLoopHead.inputs }

/-- If the loop head passes, the word at PC = a can be fetched and it matches no row of the opcode table, the step leaves
PC = a + 2 and Run = Stopped(Fault) with kind DecodeError, address a and the raw word, and changes nothing else (an
attached display's answer is taken). States R251. -/
def Obligations.DecodeFailureFaults : Prop :=
  ∀ s : State, s.passesLoopHead = true → s.canFetch = true →
    (∀ r ∈ opcodeTable, s.mem.readWord s.pc.toNat &&& r.mask ≠ r.value) →
    step s = .next { s with
      pc := s.pc + 2
      run := .stopped (.fault
        { cause := .decodeError (s.mem.readWord s.pc.toNat), addr := s.pc, raw := some (s.mem.readWord s.pc.toNat) })
      inputs := s.afterLoopHead.inputs }

/-- A machine with Run = Stopped(reason) answers the fault stopped with that reason; a Running machine's step always
answers a next state. That having no step is a Fault of the model is the model's form (log 9). Derived from
10_state.md section 9 (run state), 60_exceptions.md section 1 (fault return and nesting), log 9. -/
def Obligations.OnlyAStoppedMachineHasNoStep : Prop :=
  (∀ (s : State) (r : StopReason), s.run = .stopped r → step s = .fault (.stopped r)) ∧
  (∀ s : State, s.run = .running → ∃ t, step s = .next t)

/-- For every state, if a step's next state is not Running or is suspended, then DT, ST and the event trace are as before
the step. Derived from 40_cycle.md section 3 (what ends an iteration early), 92_eei_decisions.md D34. -/
def Obligations.EarlyEndRunsNoTick : Prop :=
  ∀ s t : State, step s = .next t → (t.run ≠ .running ∨ t.keyWait ≠ none) →
    t.dt = s.dt ∧ t.st = s.st ∧ t.trace = s.trace

/-- For every state and n, after n ticks DT and ST are reduced by n but not below 0, exactly min(n, ST) Tone events have
been appended to the trace, and every other field is unchanged; n = 1 is the single tick. States R121, R122. -/
def Obligations.TicksCountTimersDownAndSoundTones : Prop :=
  ∀ (s : State) (n : Nat),
    let t := State.timerTick^[n] s
    t.dt.toNat = s.dt.toNat - n ∧ t.st.toNat = s.st.toNat - n ∧
    t.trace = s.trace ++ List.replicate (min n s.st.toNat) .tone ∧
    t = { s with dt := t.dt, st := t.st, trace := t.trace }

/-- For every state and every step that leaves Run = Stopped(Fault(record)): the next state is the old one with that Run,
with PC = a + 2, or PC unchanged for a FETCH_RANGE fault, and with an attached display's answer taken; the record's
address is the old PC and its raw word is the fetched word, absent for FETCH_RANGE. No other state is saved or
changed. States R260. -/
def Obligations.FaultsArePrecise : Prop :=
  ∀ (s t : State) (rec : FaultRecord), step s = .next t → t.run = .stopped (.fault rec) →
    rec.addr = s.pc ∧
    (((∃ p, rec.cause = .fetchRange p) ∧ rec.raw = none ∧
        t = { s with run := .stopped (.fault rec), inputs := s.afterLoopHead.inputs }) ∨
      ((∀ p, rec.cause ≠ .fetchRange p) ∧ rec.raw = some (s.mem.readWord s.pc.toNat) ∧
        t = { s with run := .stopped (.fault rec), pc := s.pc + 2, inputs := s.afterLoopHead.inputs }))

/-- Execute of LD Vx, K sets KeyWait to Some(x) and changes nothing else; the step that runs it leaves PC = a + 2, the
timers and the trace as they were. States R236. -/
def Obligations.WaitForKeySuspends : Prop :=
  (∀ (x : RegIx) (s : State), exec (.ldVxK x) s = .next { s with keyWait := some x }) ∧
  (∀ (x : RegIx) (s : State), s.passesLoopHead = true → s.canFetch = true →
    decode (s.mem.read s.pc.toNat) (s.mem.read (s.pc.toNat + 1)) = .ok (.ldVxK x) →
    step s = .next { s with pc := s.pc + 2, keyWait := some x, inputs := s.afterLoopHead.inputs })

/-- For a Running machine suspended for register x with no stop request, if the wait's next answer is key k, the step
writes k to V[x] and no other register, clears KeyWait, counts both timers down once, emits a Tone iff ST was nonzero,
takes the answer, and changes nothing else. States R237. -/
def Obligations.KeyArrivalCompletesWait : Prop :=
  ∀ (s : State) (x : RegIx) (k : Key) (rest : List WaitAnswer), s.run = .running → s.keyWait = some x →
    s.inputs.stopReq = false → s.inputs.waitKey = .key k :: rest →
    ∃ t, step s = .next t ∧
      (∀ r, (t.getV r).toNat = if r = x then k.val else (s.getV r).toNat) ∧
      t.dt.toNat = s.dt.toNat - 1 ∧ t.st.toNat = s.st.toNat - 1 ∧
      t.trace = s.trace ++ (if s.st = 0 then [] else [.tone]) ∧
      t = { s with
        v := t.v, keyWait := none, dt := t.dt, st := t.st, trace := t.trace
        inputs := { s.inputs with waitKey := rest } }

/-- For a Running machine suspended for register x with no stop request, if the wait's next answer is no key, the step
clears KeyWait, sets Run to Stopped(KeyWaitCancelled), takes the answer, and changes nothing else. States R238. -/
def Obligations.CancelledWaitStops : Prop :=
  ∀ (s : State) (x : RegIx) (rest : List WaitAnswer), s.run = .running → s.keyWait = some x →
    s.inputs.stopReq = false → s.inputs.waitKey = .noKey :: rest →
    step s = .next { s with
      keyWait := none, run := .stopped .keyWaitCancelled, inputs := { s.inputs with waitKey := rest } }

/-- For a Running machine suspended for register x whose stop latch is set and whose wait has no answer yet, the step
clears KeyWait, sets Run to Stopped(StopSignal), and changes nothing else. (With an answer pending too,
KeyWaitResolutions applies.) States R239. -/
def Obligations.StopRequestEndsWait : Prop :=
  ∀ (s : State) (x : RegIx), s.run = .running → s.keyWait = some x → s.inputs.stopReq = true →
    s.inputs.waitKey = [] →
    step s = .next { s with keyWait := none, run := .stopped .stopSignal }

/-- For a Running machine suspended for x: with nothing pending the step changes nothing; with a stop request and an
answer both pending, the step stops the run as StopSignal if the free value at the draw counter says so, and otherwise
acts on the answer exactly as it would with no stop request and the counter one higher. That an unanswered wait is a
step to the same state is the model's form (log 7), and which resolution wins is a free value (log 8). Derived from
45_timers_keys.md section Fx0A (R240), 93_implementation_defined.md U6, U17, log 7, log 8. -/
def Obligations.KeyWaitResolutions : Prop :=
  ∀ (s : State) (x : RegIx), s.run = .running → s.keyWait = some x →
    (s.inputs.stopReq = false → s.inputs.waitKey = [] → step s = .next s) ∧
    (∀ a rest, s.inputs.stopReq = true → s.inputs.waitKey = a :: rest →
      ∃ t, step { s with inputs := { s.inputs with stopReq := false, draws := s.inputs.draws + 1 } } = .next t ∧
        step s = .next (if Config.stopBeforeKey s.inputs.draws
          then { s with
            keyWait := none, run := .stopped .stopSignal
            inputs := { s.inputs with draws := s.inputs.draws + 1 } }
          else { t with inputs := { t.inputs with stopReq := true } }))

/-- Execute of JP nnn answers the state with PC = nnn, and of JP V0, nnn the state with PC = nnn + V0 as a number up to
0x10FE; every other field is unchanged. States R142, R148. -/
def Obligations.JumpsSetPc : Prop :=
  ∀ (nnn : Addr12) (s : State),
    (∃ t, exec (.jp nnn) s = .next t ∧ t.pc.toNat = nnn.toNat ∧ t = { s with pc := t.pc }) ∧
    (∃ t, exec (.jpV0 nnn) s = .next t ∧ t.pc.toNat = nnn.toNat + (s.getV 0).toNat ∧ t = { s with pc := t.pc })

/-- With SP below 16, Execute of CALL nnn writes PC (a + 2) to S[SP], leaves every other slot, increments SP, sets PC to
nnn and changes nothing else. With SP = 16 it only sets Run to Stopped(Fault) with kind STACK_OVERFLOW, info SP = 16,
the instruction's address PC - 2 and its word. States R143, R252. -/
def Obligations.CallPushesReturnAddress : Prop :=
  ∀ (nnn : Addr12) (s : State),
    (s.sp.val < 16 → ∃ t, exec (.call nnn) s = .next t ∧
      t.pc.toNat = nnn.toNat ∧ t.sp.val = s.sp.val + 1 ∧
      (∀ k : Fin 16, t.stack[k] = if k.val = s.sp.val then s.pc else s.stack[k]) ∧
      t = { s with pc := t.pc, sp := t.sp, stack := t.stack }) ∧
    (s.sp.val = 16 → exec (.call nnn) s = .next { s with
      run := .stopped (.fault { cause := .stackOverflow 16, addr := s.pc - 2, raw := some (encode (.call nnn)) }) })

/-- With SP above 0, Execute of RET sets PC to S[SP-1], decrements SP, leaves every slot and changes nothing else. With SP
= 0 it only sets Run to Stopped(Fault) with kind STACK_UNDERFLOW, info SP = 0, the instruction's address PC - 2 and
its word 00EE. States R141, R253. -/
def Obligations.ReturnPopsAddress : Prop :=
  ∀ s : State,
    (∀ k : Fin 16, s.sp.val = k.val + 1 → ∃ t, exec .ret s = .next t ∧
      t.sp.val = k.val ∧ t = { s with pc := s.stack[k], sp := t.sp }) ∧
    (s.sp.val = 0 → exec .ret s = .next { s with
      run := .stopped (.fault { cause := .stackUnderflow 0, addr := s.pc - 2, raw := some 0x00EE#16 }) })

/-- If SP is below 16 and CALL nnn answers t, then Execute of RET from t with any PC answers a state with the PC and SP
the call found, which differs from the state before the call in the stack slots only. Derived from 95_test_vectors.md
section 1 (EX-5), 41_flow.md section 2nnn. -/
def Obligations.ReturnUndoesCall : Prop :=
  ∀ (nnn : Addr12) (s t : State) (p : Word), s.sp.val < 16 → exec (.call nnn) s = .next t →
    exec .ret { t with pc := p } = .next { s with stack := t.stack }

/-- Execute of SE Vx, nn answers the state with PC + 2 if V[x] = nn and the state itself otherwise; SNE Vx, nn the other
way round; every other field is unchanged. States R144, R145. -/
def Obligations.ImmediateSkips : Prop :=
  ∀ (x : RegIx) (nn : Byte) (s : State),
    (s.getV x = nn → exec (.seImm x nn) s = .next { s with pc := s.pc + 2 } ∧ exec (.sneImm x nn) s = .next s) ∧
    (s.getV x ≠ nn → exec (.seImm x nn) s = .next s ∧ exec (.sneImm x nn) s = .next { s with pc := s.pc + 2 })

/-- Execute of SE Vx, Vy answers the state with PC + 2 if V[x] = V[y] and the state itself otherwise; SNE Vx, Vy the other
way round; every other field is unchanged; and a word 5xyN or 9xyN with N not 0 is refused by the decoder. States
R146, R147. -/
def Obligations.RegisterSkips : Prop :=
  (∀ (x y : RegIx) (s : State),
    (s.getV x = s.getV y → exec (.seReg x y) s = .next { s with pc := s.pc + 2 } ∧ exec (.sneReg x y) s = .next s) ∧
    (s.getV x ≠ s.getV y → exec (.seReg x y) s = .next s ∧ exec (.sneReg x y) s = .next { s with pc := s.pc + 2 })) ∧
  (∀ w : Word, w.toNat % 16 ≠ 0 →
    (w.toNat / 0x1000 = 0x5 → decodeWord w = .error .family5) ∧
    (w.toNat / 0x1000 = 0x9 → decodeWord w = .error .family9))

/-- Execute of each answers a state in which V[x] has the value the rule gives as a number, every other register (VF too,
unless x = F) is unchanged, and every other field is unchanged. States R161, R162. -/
def Obligations.ImmediateLoadAndAdd : Prop :=
  ∀ (x : RegIx) (nn : Byte) (s : State),
    (∃ t, exec (.ldImm x nn) s = .next t ∧ (∀ r, t.getV r = if r = x then nn else s.getV r) ∧
      t = { s with v := t.v }) ∧
    (∃ t, exec (.addImm x nn) s = .next t ∧
      (∀ r, (t.getV r).toNat = if r = x then ((s.getV x).toNat + nn.toNat) % 256 else (s.getV r).toNat) ∧
      t = { s with v := t.v })

/-- Execute of each answers a state in which V[x] is V[y], or at every bit the or, and, xor of V[x] and V[y] before; every
other register (VF too, unless x = F) and every other field is unchanged. States R163, R164, R165, R166. -/
def Obligations.MoveAndBitwise : Prop :=
  ∀ (x y : RegIx) (s : State),
    (∃ t, exec (.ldReg x y) s = .next t ∧ t.getV x = s.getV y ∧
      (∀ r, r ≠ x → t.getV r = s.getV r) ∧ t = { s with v := t.v }) ∧
    (∃ t, exec (.orReg x y) s = .next t ∧
      (∀ k < 8, (t.getV x).getLsbD k = ((s.getV x).getLsbD k || (s.getV y).getLsbD k)) ∧
      (∀ r, r ≠ x → t.getV r = s.getV r) ∧ t = { s with v := t.v }) ∧
    (∃ t, exec (.andReg x y) s = .next t ∧
      (∀ k < 8, (t.getV x).getLsbD k = ((s.getV x).getLsbD k && (s.getV y).getLsbD k)) ∧
      (∀ r, r ≠ x → t.getV r = s.getV r) ∧ t = { s with v := t.v }) ∧
    (∃ t, exec (.xorReg x y) s = .next t ∧
      (∀ k < 8, (t.getV x).getLsbD k = ((s.getV x).getLsbD k ^^ (s.getV y).getLsbD k)) ∧
      (∀ r, r ≠ x → t.getV r = s.getV r) ∧ t = { s with v := t.v })

/-- Execute answers a state in which VF is 1 iff the sum of the old values exceeds 255 and 0 otherwise, V[x] for x other
than F is the sum mod 256, every other register and every other field is unchanged. States R167. -/
def Obligations.AddSetsCarry : Prop :=
  ∀ (x y : RegIx) (s : State), ∃ t, exec (.addReg x y) s = .next t ∧
    (∀ r, (t.getV r).toNat =
      if r = 15 then (if 255 < (s.getV x).toNat + (s.getV y).toNat then 1 else 0)
      else if r = x then ((s.getV x).toNat + (s.getV y).toNat) % 256 else (s.getV r).toNat) ∧
    t = { s with v := t.v }

/-- Execute of SUB Vx, Vy (minuend Vx) and SUBN Vx, Vy (minuend Vy) answers a state in which VF is 1 iff the old minuend
is at least the old subtrahend and 0 otherwise, V[x] for x other than F is (minuend + 256 - subtrahend) mod 256, and
every other register and field is unchanged. States R168, R170. -/
def Obligations.SubtractionsSetNotBorrow : Prop :=
  ∀ (x y : RegIx) (s : State),
    (∃ t, exec (.sub x y) s = .next t ∧
      (∀ r, (t.getV r).toNat =
        if r = 15 then (if (s.getV y).toNat ≤ (s.getV x).toNat then 1 else 0)
        else if r = x then ((s.getV x).toNat + 256 - (s.getV y).toNat) % 256 else (s.getV r).toNat) ∧
      t = { s with v := t.v }) ∧
    (∃ t, exec (.subn x y) s = .next t ∧
      (∀ r, (t.getV r).toNat =
        if r = 15 then (if (s.getV x).toNat ≤ (s.getV y).toNat then 1 else 0)
        else if r = x then ((s.getV y).toNat + 256 - (s.getV x).toNat) % 256 else (s.getV r).toNat) ∧
      t = { s with v := t.v })

/-- Execute of SHR Vx, Vy answers a state in which V[x] for x other than F is the old value div 2 and VF the old bit 0; of
SHL Vx, Vy the old value times 2 mod 256 and VF the old bit 7; every other register and field is unchanged, and y has
no effect. States R169, R171. -/
def Obligations.ShiftsSetTheBitShiftedOut : Prop :=
  ∀ (x y : RegIx) (s : State),
    (∃ t, exec (.shr x y) s = .next t ∧
      (∀ r, (t.getV r).toNat =
        if r = 15 then (s.getV x).toNat % 2 else if r = x then (s.getV x).toNat / 2 else (s.getV r).toNat) ∧
      t = { s with v := t.v }) ∧
    (∃ t, exec (.shl x y) s = .next t ∧
      (∀ r, (t.getV r).toNat =
        if r = 15 then (s.getV x).toNat / 128
        else if r = x then (s.getV x).toNat * 2 % 256 else (s.getV r).toNat) ∧
      t = { s with v := t.v })

/-- Execute of RND Vx, nn answers a state in which V[x] is r AND nn for r the oldest queued byte, or, with none queued,
the free value at the draw counter; every other register is unchanged and only the taken draw changes in the inputs;
and for every byte r the machine with r queued in front writes r AND nn. The queue and the free value are the model's
form of the oracle (log 6). Derived from 42_alu.md section Cxnn, 60_exceptions.md section 2 (RandByte), log 6. -/
def Obligations.RandomAndMasksTheDraw : Prop :=
  ∀ (x : RegIx) (nn : Byte) (s : State),
    (∀ r rest, s.inputs.randByte = r :: rest → ∃ t, exec (.rnd x nn) s = .next t ∧
      (∀ q, t.getV q = if q = x then r &&& nn else s.getV q) ∧
      t = { s with v := t.v, inputs := { s.inputs with randByte := rest } }) ∧
    (s.inputs.randByte = [] → ∃ t, exec (.rnd x nn) s = .next t ∧
      (∀ q, t.getV q = if q = x then Config.randByte s.inputs.draws &&& nn else s.getV q) ∧
      t = { s with v := t.v, inputs := { s.inputs with draws := s.inputs.draws + 1 } }) ∧
    (∀ r : Byte, ∃ t,
      exec (.rnd x nn) { s with inputs := { s.inputs with randByte := r :: s.inputs.randByte } } = .next t ∧
      t.getV x = r &&& nn)

/-- Execute answers a state in which every pixel is off and the trace has one more event, Render with that framebuffer;
every other field is unchanged. States R191. -/
def Obligations.ClearScreenClears : Prop :=
  ∀ s : State, ∃ t, exec .cls s = .next t ∧ (∀ r c, pixel t.fb r c = false) ∧
    t = { s with fb := t.fb, trace := s.trace ++ [.render t.fb] }

/-- With the n bytes at I in memory (or n = 0), Execute of DRW answers a state in which the pixel at row r, column c is
inverted iff for some k < n and j < 8 it is the pixel (V[y] mod 32 + k, V[x] mod 64 + j) and bit 7 - j of M[I + k] is
set; VF is 1 iff some pixel that was on is so inverted and 0 otherwise; every other register is unchanged; one Render
of the new framebuffer is appended; every other field, I and memory among them, is unchanged. When n > 0 and I + n - 1
is above 0xFFF it only sets Run to Stopped(Fault) with kind MEM_RANGE and info (I, n). States R192, R194, R195. -/
def Obligations.DrawXorsTheSprite : Prop :=
  ∀ (x y : RegIx) (n : Nat) (s : State),
    let hit : Fin 32 → Fin 64 → Prop := fun r c => ∃ k j, k < n ∧ j < 8 ∧
      r.val = (s.getV y).toNat % 32 + k ∧ c.val = (s.getV x).toNat % 64 + j ∧
      (s.mem.read (s.i.toNat + k)).getLsbD (7 - j) = true
    ((n = 0 ∨ s.i.toNat + n - 1 ≤ 0xFFF) → ∃ t, exec (.drw x y n) s = .next t ∧
      (∀ r c, (hit r c → pixel t.fb r c = !pixel s.fb r c) ∧ (¬ hit r c → pixel t.fb r c = pixel s.fb r c)) ∧
      ((∃ r c, hit r c ∧ pixel s.fb r c = true) → t.getV 15 = 1) ∧
      ((¬ ∃ r c, hit r c ∧ pixel s.fb r c = true) → t.getV 15 = 0) ∧
      (∀ q, q ≠ 15 → t.getV q = s.getV q) ∧
      t = { s with fb := t.fb, v := t.v, trace := s.trace ++ [.render t.fb] }) ∧
    (0 < n → 0xFFF < s.i.toNat + n - 1 → exec (.drw x y n) s = .next { s with
      run := .stopped (.fault { cause := .memRange s.i n, addr := s.pc - 2, raw := some (encode (.drw x y n)) }) })

/-- If DRW with x and y other than F answers t from s without a fault, DRW again from t answers u with the framebuffer of
s; and if every pixel of s is off, VF is 0 in t, and in u it is 1 iff the first draw lit a pixel and 0 otherwise.
Derived from 43_display.md section Dxyn (collision flag), 90_conflicts.md C4. -/
def Obligations.DrawTwiceRestores : Prop :=
  ∀ (x y : RegIx) (n : Nat) (s t : State), x ≠ 15 → y ≠ 15 → inRange s.i.toNat n = true →
    exec (.drw x y n) s = .next t → ∃ u, exec (.drw x y n) t = .next u ∧ u.fb = s.fb ∧
      ((∀ r c, pixel s.fb r c = false) → t.getV 15 = 0 ∧
        ((∃ r c, pixel t.fb r c = true) → u.getV 15 = 1) ∧
        ((∀ r c, pixel t.fb r c = false) → u.getV 15 = 0))

/-- Execute of each answers the state with I at that number and every other field unchanged, whatever the values. States
R210, R211, R212. -/
def Obligations.IndexRegisterWrites : Prop :=
  ∀ (nnn : Addr12) (x : RegIx) (s : State),
    (∃ t, exec (.ldI nnn) s = .next t ∧ t.i.toNat = nnn.toNat ∧ t = { s with i := t.i }) ∧
    (∃ t, exec (.addI x) s = .next t ∧ t.i.toNat = (s.i.toNat + (s.getV x).toNat) % 65536 ∧ t = { s with i := t.i }) ∧
    (∃ t, exec (.ldF x) s = .next t ∧ t.i.toNat = 5 * (s.getV x).toNat ∧ t = { s with i := t.i })

/-- In canonical memory, with I + 2 at most 0xFFF, Execute answers a state in which M[I], M[I+1], M[I+2] are V[x] div 100,
(V[x] div 10) mod 10 and V[x] mod 10, every other address reads as before and every other field, I among them, is
unchanged. With I + 2 above 0xFFF it only sets Run to Stopped(Fault) with kind MEM_RANGE and info (I, 3). States R213. -/
def Obligations.BcdWritesThreeDigits : Prop :=
  ∀ (x : RegIx) (s : State), s.mem.wf = true →
    (s.i.toNat + 2 ≤ 0xFFF → ∃ t, exec (.ldB x) s = .next t ∧
      (t.mem.read s.i.toNat).toNat = (s.getV x).toNat / 100 ∧
      (t.mem.read (s.i.toNat + 1)).toNat = (s.getV x).toNat / 10 % 10 ∧
      (t.mem.read (s.i.toNat + 2)).toNat = (s.getV x).toNat % 10 ∧
      (∀ a, (a < s.i.toNat ∨ s.i.toNat + 2 < a) → t.mem.read a = s.mem.read a) ∧
      t = { s with mem := t.mem }) ∧
    (0xFFF < s.i.toNat + 2 → exec (.ldB x) s = .next { s with
      run := .stopped (.fault { cause := .memRange s.i 3, addr := s.pc - 2, raw := some (encode (.ldB x)) }) })

/-- In canonical memory, with I + x at most 0xFFF, Execute answers a state in which M[I + k] is V[k] for every k up to x,
every other address reads as before and every other field, I among them, is unchanged. With I + x above 0xFFF it only
sets Run to Stopped(Fault) with kind MEM_RANGE and info (I, x + 1). States R214. -/
def Obligations.StoreRegistersWritesBlock : Prop :=
  ∀ (x : RegIx) (s : State), s.mem.wf = true →
    (s.i.toNat + x.val ≤ 0xFFF → ∃ t, exec (.storeRegs x) s = .next t ∧
      (∀ k : RegIx, k ≤ x → t.mem.read (s.i.toNat + k.val) = s.getV k) ∧
      (∀ a, (a < s.i.toNat ∨ s.i.toNat + x.val < a) → t.mem.read a = s.mem.read a) ∧
      t = { s with mem := t.mem }) ∧
    (0xFFF < s.i.toNat + x.val → exec (.storeRegs x) s = .next { s with
      run := .stopped (.fault
        { cause := .memRange s.i (x.val + 1), addr := s.pc - 2, raw := some (encode (.storeRegs x)) }) })

/-- With I + x at most 0xFFF, Execute answers a state in which V[k] is M[I + k] for every k up to x, every register above
x is unchanged, and every other field, I and memory among them, is unchanged. With I + x above 0xFFF it only sets Run
to Stopped(Fault) with kind MEM_RANGE and info (I, x + 1). States R215. -/
def Obligations.LoadRegistersReadsBlock : Prop :=
  ∀ (x : RegIx) (s : State),
    (s.i.toNat + x.val ≤ 0xFFF → ∃ t, exec (.loadRegs x) s = .next t ∧
      (∀ k : RegIx, t.getV k = if k ≤ x then s.mem.read (s.i.toNat + k.val) else s.getV k) ∧
      t = { s with v := t.v }) ∧
    (0xFFF < s.i.toNat + x.val → exec (.loadRegs x) s = .next { s with
      run := .stopped (.fault
        { cause := .memRange s.i (x.val + 1), addr := s.pc - 2, raw := some (encode (.loadRegs x)) }) })

/-- In canonical memory with I + x at most 0xFFF: if LD [I], Vx answers t, then with any register file w put in t, LD Vx,
[I] answers u in which V0 to Vx are as before the store and the registers above x are those of w. Derived from
95_test_vectors.md section 1 (EX-7), 44_index_memory.md section Fx65. -/
def Obligations.SpillThenReloadRestores : Prop :=
  ∀ (x : RegIx) (s t : State) (w : Vector Byte 16), s.mem.wf = true → s.i.toNat + x.val ≤ 0xFFF →
    exec (.storeRegs x) s = .next t → ∃ u, exec (.loadRegs x) { t with v := w } = .next u ∧
      (∀ k : RegIx, u.getV k = if k ≤ x then s.getV k else w[k])

/-- Execute of each answers the state with that one register written and every other field unchanged. In the iteration
that runs it, LD Vx, DT gives V[x] the DT from before the tick; after LD DT, Vx the step leaves DT = V[x] - 1 (0 for
0), and after LD ST, Vx it leaves ST = V[x] - 1 (0 for 0) with one Tone iff V[x] is nonzero. States R230, R231, R232. -/
def Obligations.TimerRegisterMoves : Prop :=
  (∀ (x : RegIx) (s : State),
    (∃ t, exec (.ldVxDt x) s = .next t ∧ (∀ r, t.getV r = if r = x then s.dt else s.getV r) ∧ t = { s with v := t.v }) ∧
    exec (.ldDtVx x) s = .next { s with dt := s.getV x } ∧
    exec (.ldStVx x) s = .next { s with st := s.getV x }) ∧
  (∀ (x : RegIx) (s : State), s.passesLoopHead = true → s.canFetch = true →
    (decodeWord (s.mem.readWord s.pc.toNat) = .ok (.ldVxDt x) → ∃ t, step s = .next t ∧
      t.getV x = s.dt ∧ t.dt.toNat = s.dt.toNat - 1) ∧
    (decodeWord (s.mem.readWord s.pc.toNat) = .ok (.ldDtVx x) → ∃ t, step s = .next t ∧
      t.dt.toNat = (s.getV x).toNat - 1) ∧
    (decodeWord (s.mem.readWord s.pc.toNat) = .ok (.ldStVx x) → ∃ t, step s = .next t ∧
      t.st.toNat = (s.getV x).toNat - 1 ∧
      t.trace = s.trace ++ (if s.getV x = 0 then [] else [.tone])))

/-- With V[x] = k at most 0xF: if the oldest queued answer is b, Execute of SKP answers the state with that answer taken
and PC + 2 iff b holds, and SKNP with PC + 2 iff b does not; with no answer queued the same for the free value of key
k at the draw counter. The queue and the free value are the model's form of the oracle (log 6). Derived from
45_timers_keys.md sections Ex9E and ExA1 (R234, R235), 60_exceptions.md section 2 (KeyHeld), log 6. -/
def Obligations.KeySkipsAskTheKey : Prop :=
  ∀ (x : RegIx) (k : Key) (s : State), (s.getV x).toNat = k.val →
    (∀ b rest, s.inputs.keyHeld = b :: rest →
      exec (.skp x) s = .next { s with
        pc := if b then s.pc + 2 else s.pc, inputs := { s.inputs with keyHeld := rest } } ∧
      exec (.sknp x) s = .next { s with
        pc := if b then s.pc else s.pc + 2, inputs := { s.inputs with keyHeld := rest } }) ∧
    (s.inputs.keyHeld = [] →
      exec (.skp x) s = .next { s with
        pc := if Config.keyHeld s.inputs.draws k then s.pc + 2 else s.pc
        inputs := { s.inputs with draws := s.inputs.draws + 1 } } ∧
      exec (.sknp x) s = .next { s with
        pc := if Config.keyHeld s.inputs.draws k then s.pc else s.pc + 2
        inputs := { s.inputs with draws := s.inputs.draws + 1 } })

/-- With V[x] above 0xF, Execute of SKP or SKNP only sets Run to Stopped(Fault) with kind KEY_RANGE, info V[x], the
instruction's address PC - 2 and its word; the answers of the keypad are not taken. States R233, R256. -/
def Obligations.KeyNumberOutOfRangeFaults : Prop :=
  ∀ (x : RegIx) (s : State), 0xF < (s.getV x).toNat →
    exec (.skp x) s = .next { s with
      run := .stopped (.fault { cause := .keyRange (s.getV x), addr := s.pc - 2, raw := some (encode (.skp x)) }) } ∧
    exec (.sknp x) s = .next { s with
      run := .stopped (.fault { cause := .keyRange (s.getV x), addr := s.pc - 2, raw := some (encode (.sknp x)) }) }

/-- If exec i answers t from s: I differs only for LD I, ADD I, LD F; DT only for LD DT; ST only for LD ST; a stack slot
only for CALL and SP only for CALL and RET; the framebuffer and the trace only for CLS and DRW; memory only for LD B
and LD [I]; KeyWait only for LD Vx, K; PC only for the jumps, CALL, RET and the skips; ProgEnd and DISPLAY_ATTACHED
never; the inputs only for RND, SKP and SKNP. The inputs are the model's own field, its form of the oracles that these
three draw from (log 6). Derived from 10_state.md section 3 (R25, PC), 10_state.md section 4 (R28, I), 10_state.md
section 5 (R29, R30, call stack), 10_state.md section 6 (R31, R32, timers), 10_state.md section 7 (R33, ProgEnd),
10_state.md section 8 (R34, framebuffer), 10_state.md section 9 (R36, KeyWait; R41, event trace), 20_memory.md section
1 (R50) and section 2 (R52), 92_eei_decisions.md D37 (DISPLAY_ATTACHED), 60_exceptions.md section 2 (R264, R267), log
6. -/
def Obligations.OnlyNamedInstructionsWriteEachField : Prop :=
  ∀ (i : Instr) (s t : State), exec i s = .next t →
    (t.i ≠ s.i → (∃ nnn, i = .ldI nnn) ∨ (∃ x, i = .addI x) ∨ ∃ x, i = .ldF x) ∧
    (t.dt ≠ s.dt → ∃ x, i = .ldDtVx x) ∧ (t.st ≠ s.st → ∃ x, i = .ldStVx x) ∧
    (t.stack ≠ s.stack → ∃ nnn, i = .call nnn) ∧ (t.sp ≠ s.sp → (∃ nnn, i = .call nnn) ∨ i = .ret) ∧
    (t.fb ≠ s.fb ∨ t.trace ≠ s.trace → i = .cls ∨ ∃ x y n, i = .drw x y n) ∧
    (t.mem ≠ s.mem → (∃ x, i = .ldB x) ∨ ∃ x, i = .storeRegs x) ∧
    (t.keyWait ≠ s.keyWait → ∃ x, i = .ldVxK x) ∧
    (t.pc ≠ s.pc → i = .ret ∨ (∃ nnn, i = .jp nnn ∨ i = .call nnn ∨ i = .jpV0 nnn) ∨
      (∃ x nn, i = .seImm x nn ∨ i = .sneImm x nn) ∨ (∃ x y, i = .seReg x y ∨ i = .sneReg x y) ∨
      ∃ x, i = .skp x ∨ i = .sknp x) ∧
    t.progEnd = s.progEnd ∧ t.displayAttached = s.displayAttached ∧
    (t.inputs ≠ s.inputs → (∃ x nn, i = .rnd x nn) ∨ ∃ x, i = .skp x ∨ i = .sknp x)

/-- If exec i answers t from s and V[r] differs, then r is one of the registers the table lists as written by i (for LD
Vx, K none at Execute: Vx is written when the key arrives). Derived from 10_state.md section 2 (register readers and
writers). -/
def Obligations.RegisterWritersAreTheTable : Prop :=
  ∀ (i : Instr) (s t : State) (r : RegIx), exec i s = .next t → t.getV r ≠ s.getV r → Spec.writesV i r = true

/-- If the table does not list V[r] as read by i and exec i answers t from s, then from s with any other value in V[r],
exec i answers a state that agrees with t in every field but the register file and in every register but r. Derived
from 10_state.md section 2 (register readers and writers). -/
def Obligations.RegistersNotReadDoNotMatter : Prop :=
  ∀ (i : Instr) (s t : State) (r : RegIx) (b : Byte), Spec.readsV i r = false → exec i s = .next t →
    ∃ u, exec i (s.setV r b) = .next u ∧ u = { t with v := u.v } ∧ ∀ q, q ≠ r → u.getV q = t.getV q

/-- In canonical memory, if exec i answers t from s, then every address outside the block of i reads as before, where the
block is M[I..I+2] for LD B, M[I..I+x] for LD [I], Vx and empty for every other instruction, I being the register
before the instruction. Derived from 20_memory.md section 2 (access widths), 44_index_memory.md (Fx33, Fx55, common
rule). -/
def Obligations.StoresTouchOnlyTheirBlock : Prop :=
  ∀ (i : Instr) (s t : State) (a : Nat), s.mem.wf = true → exec i s = .next t →
    (a < s.i.toNat ∨ s.i.toNat + Spec.storedBytes i ≤ a) → t.mem.read a = s.mem.read a

/-- For every step, the new trace is the old one followed by nothing or one Render of the new state's framebuffer,
followed by nothing or one Tone; and if the framebuffer changed, the Render is there. Derived from 10_state.md section
9 (event trace), 43_display.md (framebuffer conventions), 40_cycle.md section 4 (timer tick). -/
def Obligations.EventsAreOnlyAppended : Prop :=
  ∀ s t : State, step s = .next t →
    ∃ shown toned : Bool,
      t.trace = s.trace ++ (if shown then [.render t.fb] else []) ++ (if toned then [.tone] else []) ∧
      (t.fb ≠ s.fb → shown = true) ∧ (toned = true → s.run = .running ∧ t.run = .running)

/-- For every step and every host action, ProgEnd and DISPLAY_ATTACHED of the next state are those of the state before.
Derived from 10_state.md section 7 (program extent), 92_eei_decisions.md D37. -/
def Obligations.ConstructionParametersNeverChange : Prop :=
  (∀ s t : State, step s = .next t → t.progEnd = s.progEnd ∧ t.displayAttached = s.displayAttached) ∧
  (∀ (a : HostAct) (s : State), (hostAct a s).progEnd = s.progEnd ∧ (hostAct a s).displayAttached = s.displayAttached)

/-- For every ROM of at most 3584 bytes, every FONT and either DISPLAY_ATTACHED, construction answers a state whose memory
reads FONT at 0x000..0x04F, the ROM at 0x200.. and 0 at every other address, with ProgEnd = 0x200 + len(ROM), PC =
0x200, V, I, S, SP, DT, ST and every pixel 0, Run = Running, KeyWait = None, Trace empty; an unreadable ROM or one
over 3584 bytes answers no machine. States R280. -/
def Obligations.ConstructionBuildsTheResetState : Prop :=
  (∀ (rom : List Byte) (font : Vector Byte 80) (attached : Bool), rom.length ≤ 3584 →
    ∃ s, State.construct (some rom) font attached = .ok s ∧
      (∀ k : Fin 80, s.mem.read k.val = font[k]) ∧
      (∀ a, 80 ≤ a → a < 0x200 → s.mem.read a = 0) ∧
      (∀ k, k < rom.length → s.mem.read (0x200 + k) = rom.getD k 0) ∧
      (∀ a, 0x200 + rom.length ≤ a → s.mem.read a = 0) ∧
      s.progEnd = 0x200 + rom.length ∧ s.displayAttached = attached ∧ s.pc = 0x200#16 ∧
      (∀ r, s.getV r = 0) ∧ s.i = 0 ∧ (∀ k : Fin 16, s.stack[k] = 0) ∧ s.sp = 0 ∧ s.dt = 0 ∧ s.st = 0 ∧
      (∀ r c, pixel s.fb r c = false) ∧ s.run = .running ∧ s.keyWait = none ∧ s.trace = []) ∧
  (∀ (rom : List Byte) (font : Vector Byte 80) (attached : Bool), 3584 < rom.length →
    State.construct (some rom) font attached = .error .tooLarge) ∧
  (∀ (font : Vector Byte 80) (attached : Bool), State.construct none font attached = .error .unreadable)

/-- Construction with an empty ROM, the font that unlisted memory reads as, and no display attached answers State.reset,
and the step from State.reset stops as EndOfProgram with nothing else changed. The default font (PRESUMED, log 1), the
empty ROM (log 2) and no display (log 4) are the model's choices. Derived from 70_reset_and_hazards.md section 1
(construction, empty program), log 1, log 2, log 4. -/
def Obligations.ResetIsAnEmptyConstruction : Prop :=
  State.construct (some []) (Vector.ofFn fun k : Fin 80 => Memory.initial k.val) false = .ok State.reset ∧
  step State.reset = .next { State.reset with run := .stopped .endOfProgram }

/-- For every host action the next state differs in the inputs only, a set stop latch stays set, and a request sets it;
and a step leaves the latch as it is. Derived from 60_exceptions.md section 2 (host table), 20_memory.md section 4
(agents). -/
def Obligations.HostActsOnlyOnInputs : Prop :=
  (∀ (a : HostAct) (s : State), hostAct a s = { s with inputs := (hostAct a s).inputs } ∧
    (s.inputs.stopReq = true → (hostAct a s).inputs.stopReq = true)) ∧
  (∀ s : State, (hostAct .requestStop s).inputs.stopReq = true) ∧
  (∀ s t : State, step s = .next t → t.inputs.stopReq = s.inputs.stopReq)

/-- State.reset has canonical memory, ProgEnd in 0x200..0x1000, PC at most 0x10FE, return addresses at most 0x1000, and no
suspension of a stopped machine. Derived from 10_state.md section 9 (reset values), 10_state.md section 3 (program
counter). -/
def Obligations.ResetMeetsInvariant : Prop :=
  State.reset.Inv

/-- For every state that meets the invariant, reached or not, if the step answers a next state, that state meets the
invariant: memory is in its canonical form with no cell at or past 0x1000, ProgEnd is in 0x200..0x1000, PC is at most
0x10FE, every stack slot is at most 0x1000, and a suspended machine is Running. Derived from 10_state.md section 3
(every value PC can take is at most 0x10FE), 10_state.md section 7 (program extent), 92_eei_decisions.md D3, D4,
20_memory.md section 2 (range). -/
def Obligations.StepKeepsInvariant : Prop :=
  ∀ s t : State, s.Inv → step s = .next t → t.Inv

/-- Every state reachable from a construction with any ROM, FONT and DISPLAY_ATTACHED by steps and host actions in any
order meets the invariant. Derived from 70_reset_and_hazards.md section 1 (construction), 10_state.md section 3
(program counter), 60_exceptions.md section 2 (host table). -/
def Obligations.EveryReachableMachineMeetsInvariant : Prop :=
  ∀ s : State, Reachable s → s.Inv

/-- In canonical memory, for every well-formed instruction i the state with its word placed passes the loop head, can
fetch, reads that word at PC, and its step is the end of iteration of exec i with PC advanced by 2. (Placing a word is
the model's load of a program, log 2.) Derived from 40_cycle.md section 2 (fetch), 20_memory.md section 2 (byte
order), log 2. -/
def Obligations.PlacedWordIsRunNext : Prop :=
  ∀ (s : State) (i : Instr), s.mem.wf = true → i.wf = true →
    let p := s.withFetchWord 16 (encode i).toNat
    p.passesLoopHead = true ∧ p.canFetch = true ∧ p.mem.readWord p.pc.toNat = encode i ∧
    step p = finish (exec i { p with pc := p.pc + 2, inputs := p.afterLoopHead.inputs })
end

