-- ==== Sys2Proof/Laws/State.lean ====
section
/-! SUPPORT. What each state update does to each field: one lemma per field per update, so that no later proof unfolds a record
update. -/

namespace Sys2Proof.Machine

variable (s : State)

@[simp] theorem setV_mem (x : RegIx) (b : Byte) : (s.setV x b).mem = s.mem := rfl
@[simp] theorem setV_v (x : RegIx) (b : Byte) : (s.setV x b).v = s.v.set x b := rfl
@[simp] theorem setV_i (x : RegIx) (b : Byte) : (s.setV x b).i = s.i := rfl
@[simp] theorem setV_pc (x : RegIx) (b : Byte) : (s.setV x b).pc = s.pc := rfl
@[simp] theorem setV_stack (x : RegIx) (b : Byte) : (s.setV x b).stack = s.stack := rfl
@[simp] theorem setV_sp (x : RegIx) (b : Byte) : (s.setV x b).sp = s.sp := rfl
@[simp] theorem setV_dt (x : RegIx) (b : Byte) : (s.setV x b).dt = s.dt := rfl
@[simp] theorem setV_st (x : RegIx) (b : Byte) : (s.setV x b).st = s.st := rfl
@[simp] theorem setV_fb (x : RegIx) (b : Byte) : (s.setV x b).fb = s.fb := rfl
@[simp] theorem setV_progEnd (x : RegIx) (b : Byte) : (s.setV x b).progEnd = s.progEnd := rfl
@[simp] theorem setV_run (x : RegIx) (b : Byte) : (s.setV x b).run = s.run := rfl
@[simp] theorem setV_keyWait (x : RegIx) (b : Byte) : (s.setV x b).keyWait = s.keyWait := rfl
@[simp] theorem setV_trace (x : RegIx) (b : Byte) : (s.setV x b).trace = s.trace := rfl
@[simp] theorem setV_displayAttached (x : RegIx) (b : Byte) : (s.setV x b).displayAttached = s.displayAttached := rfl
@[simp] theorem setV_inputs (x : RegIx) (b : Byte) : (s.setV x b).inputs = s.inputs := rfl

@[simp] theorem setVs_mem (w : Vector Byte 16) : (s.setVs w).mem = s.mem := rfl
@[simp] theorem setVs_v (w : Vector Byte 16) : (s.setVs w).v = w := rfl
@[simp] theorem setVs_i (w : Vector Byte 16) : (s.setVs w).i = s.i := rfl
@[simp] theorem setVs_pc (w : Vector Byte 16) : (s.setVs w).pc = s.pc := rfl
@[simp] theorem setVs_stack (w : Vector Byte 16) : (s.setVs w).stack = s.stack := rfl
@[simp] theorem setVs_sp (w : Vector Byte 16) : (s.setVs w).sp = s.sp := rfl
@[simp] theorem setVs_dt (w : Vector Byte 16) : (s.setVs w).dt = s.dt := rfl
@[simp] theorem setVs_st (w : Vector Byte 16) : (s.setVs w).st = s.st := rfl
@[simp] theorem setVs_fb (w : Vector Byte 16) : (s.setVs w).fb = s.fb := rfl
@[simp] theorem setVs_progEnd (w : Vector Byte 16) : (s.setVs w).progEnd = s.progEnd := rfl
@[simp] theorem setVs_run (w : Vector Byte 16) : (s.setVs w).run = s.run := rfl
@[simp] theorem setVs_keyWait (w : Vector Byte 16) : (s.setVs w).keyWait = s.keyWait := rfl
@[simp] theorem setVs_trace (w : Vector Byte 16) : (s.setVs w).trace = s.trace := rfl
@[simp] theorem setVs_displayAttached (w : Vector Byte 16) : (s.setVs w).displayAttached = s.displayAttached := rfl
@[simp] theorem setVs_inputs (w : Vector Byte 16) : (s.setVs w).inputs = s.inputs := rfl

@[simp] theorem setI_mem (w : Word) : (s.setI w).mem = s.mem := rfl
@[simp] theorem setI_v (w : Word) : (s.setI w).v = s.v := rfl
@[simp] theorem setI_i (w : Word) : (s.setI w).i = w := rfl
@[simp] theorem setI_pc (w : Word) : (s.setI w).pc = s.pc := rfl
@[simp] theorem setI_stack (w : Word) : (s.setI w).stack = s.stack := rfl
@[simp] theorem setI_sp (w : Word) : (s.setI w).sp = s.sp := rfl
@[simp] theorem setI_dt (w : Word) : (s.setI w).dt = s.dt := rfl
@[simp] theorem setI_st (w : Word) : (s.setI w).st = s.st := rfl
@[simp] theorem setI_fb (w : Word) : (s.setI w).fb = s.fb := rfl
@[simp] theorem setI_progEnd (w : Word) : (s.setI w).progEnd = s.progEnd := rfl
@[simp] theorem setI_run (w : Word) : (s.setI w).run = s.run := rfl
@[simp] theorem setI_keyWait (w : Word) : (s.setI w).keyWait = s.keyWait := rfl
@[simp] theorem setI_trace (w : Word) : (s.setI w).trace = s.trace := rfl
@[simp] theorem setI_displayAttached (w : Word) : (s.setI w).displayAttached = s.displayAttached := rfl
@[simp] theorem setI_inputs (w : Word) : (s.setI w).inputs = s.inputs := rfl
@[simp] theorem setI_getV (w : Word) (r : RegIx) : (s.setI w).getV r = s.getV r := rfl

@[simp] theorem setPc_mem (w : Word) : (s.setPc w).mem = s.mem := rfl
@[simp] theorem setPc_v (w : Word) : (s.setPc w).v = s.v := rfl
@[simp] theorem setPc_i (w : Word) : (s.setPc w).i = s.i := rfl
@[simp] theorem setPc_pc (w : Word) : (s.setPc w).pc = w := rfl
@[simp] theorem setPc_stack (w : Word) : (s.setPc w).stack = s.stack := rfl
@[simp] theorem setPc_sp (w : Word) : (s.setPc w).sp = s.sp := rfl
@[simp] theorem setPc_dt (w : Word) : (s.setPc w).dt = s.dt := rfl
@[simp] theorem setPc_st (w : Word) : (s.setPc w).st = s.st := rfl
@[simp] theorem setPc_fb (w : Word) : (s.setPc w).fb = s.fb := rfl
@[simp] theorem setPc_progEnd (w : Word) : (s.setPc w).progEnd = s.progEnd := rfl
@[simp] theorem setPc_run (w : Word) : (s.setPc w).run = s.run := rfl
@[simp] theorem setPc_keyWait (w : Word) : (s.setPc w).keyWait = s.keyWait := rfl
@[simp] theorem setPc_trace (w : Word) : (s.setPc w).trace = s.trace := rfl
@[simp] theorem setPc_displayAttached (w : Word) : (s.setPc w).displayAttached = s.displayAttached := rfl
@[simp] theorem setPc_inputs (w : Word) : (s.setPc w).inputs = s.inputs := rfl
@[simp] theorem setPc_getV (w : Word) (r : RegIx) : (s.setPc w).getV r = s.getV r := rfl

@[simp] theorem setDt_mem (b : Byte) : (s.setDt b).mem = s.mem := rfl
@[simp] theorem setDt_v (b : Byte) : (s.setDt b).v = s.v := rfl
@[simp] theorem setDt_i (b : Byte) : (s.setDt b).i = s.i := rfl
@[simp] theorem setDt_pc (b : Byte) : (s.setDt b).pc = s.pc := rfl
@[simp] theorem setDt_stack (b : Byte) : (s.setDt b).stack = s.stack := rfl
@[simp] theorem setDt_sp (b : Byte) : (s.setDt b).sp = s.sp := rfl
@[simp] theorem setDt_dt (b : Byte) : (s.setDt b).dt = b := rfl
@[simp] theorem setDt_st (b : Byte) : (s.setDt b).st = s.st := rfl
@[simp] theorem setDt_fb (b : Byte) : (s.setDt b).fb = s.fb := rfl
@[simp] theorem setDt_progEnd (b : Byte) : (s.setDt b).progEnd = s.progEnd := rfl
@[simp] theorem setDt_run (b : Byte) : (s.setDt b).run = s.run := rfl
@[simp] theorem setDt_keyWait (b : Byte) : (s.setDt b).keyWait = s.keyWait := rfl
@[simp] theorem setDt_trace (b : Byte) : (s.setDt b).trace = s.trace := rfl
@[simp] theorem setDt_displayAttached (b : Byte) : (s.setDt b).displayAttached = s.displayAttached := rfl
@[simp] theorem setDt_inputs (b : Byte) : (s.setDt b).inputs = s.inputs := rfl
@[simp] theorem setDt_getV (b : Byte) (r : RegIx) : (s.setDt b).getV r = s.getV r := rfl

@[simp] theorem setSt_mem (b : Byte) : (s.setSt b).mem = s.mem := rfl
@[simp] theorem setSt_v (b : Byte) : (s.setSt b).v = s.v := rfl
@[simp] theorem setSt_i (b : Byte) : (s.setSt b).i = s.i := rfl
@[simp] theorem setSt_pc (b : Byte) : (s.setSt b).pc = s.pc := rfl
@[simp] theorem setSt_stack (b : Byte) : (s.setSt b).stack = s.stack := rfl
@[simp] theorem setSt_sp (b : Byte) : (s.setSt b).sp = s.sp := rfl
@[simp] theorem setSt_dt (b : Byte) : (s.setSt b).dt = s.dt := rfl
@[simp] theorem setSt_st (b : Byte) : (s.setSt b).st = b := rfl
@[simp] theorem setSt_fb (b : Byte) : (s.setSt b).fb = s.fb := rfl
@[simp] theorem setSt_progEnd (b : Byte) : (s.setSt b).progEnd = s.progEnd := rfl
@[simp] theorem setSt_run (b : Byte) : (s.setSt b).run = s.run := rfl
@[simp] theorem setSt_keyWait (b : Byte) : (s.setSt b).keyWait = s.keyWait := rfl
@[simp] theorem setSt_trace (b : Byte) : (s.setSt b).trace = s.trace := rfl
@[simp] theorem setSt_displayAttached (b : Byte) : (s.setSt b).displayAttached = s.displayAttached := rfl
@[simp] theorem setSt_inputs (b : Byte) : (s.setSt b).inputs = s.inputs := rfl
@[simp] theorem setSt_getV (b : Byte) (r : RegIx) : (s.setSt b).getV r = s.getV r := rfl

@[simp] theorem setMem_mem (m : Memory) : (s.setMem m).mem = m := rfl
@[simp] theorem setMem_v (m : Memory) : (s.setMem m).v = s.v := rfl
@[simp] theorem setMem_i (m : Memory) : (s.setMem m).i = s.i := rfl
@[simp] theorem setMem_pc (m : Memory) : (s.setMem m).pc = s.pc := rfl
@[simp] theorem setMem_stack (m : Memory) : (s.setMem m).stack = s.stack := rfl
@[simp] theorem setMem_sp (m : Memory) : (s.setMem m).sp = s.sp := rfl
@[simp] theorem setMem_dt (m : Memory) : (s.setMem m).dt = s.dt := rfl
@[simp] theorem setMem_st (m : Memory) : (s.setMem m).st = s.st := rfl
@[simp] theorem setMem_fb (m : Memory) : (s.setMem m).fb = s.fb := rfl
@[simp] theorem setMem_progEnd (m : Memory) : (s.setMem m).progEnd = s.progEnd := rfl
@[simp] theorem setMem_run (m : Memory) : (s.setMem m).run = s.run := rfl
@[simp] theorem setMem_keyWait (m : Memory) : (s.setMem m).keyWait = s.keyWait := rfl
@[simp] theorem setMem_trace (m : Memory) : (s.setMem m).trace = s.trace := rfl
@[simp] theorem setMem_displayAttached (m : Memory) : (s.setMem m).displayAttached = s.displayAttached := rfl
@[simp] theorem setMem_inputs (m : Memory) : (s.setMem m).inputs = s.inputs := rfl
@[simp] theorem setMem_getV (m : Memory) (r : RegIx) : (s.setMem m).getV r = s.getV r := rfl

@[simp] theorem setFb_mem (f : Framebuffer) : (s.setFb f).mem = s.mem := rfl
@[simp] theorem setFb_v (f : Framebuffer) : (s.setFb f).v = s.v := rfl
@[simp] theorem setFb_i (f : Framebuffer) : (s.setFb f).i = s.i := rfl
@[simp] theorem setFb_pc (f : Framebuffer) : (s.setFb f).pc = s.pc := rfl
@[simp] theorem setFb_stack (f : Framebuffer) : (s.setFb f).stack = s.stack := rfl
@[simp] theorem setFb_sp (f : Framebuffer) : (s.setFb f).sp = s.sp := rfl
@[simp] theorem setFb_dt (f : Framebuffer) : (s.setFb f).dt = s.dt := rfl
@[simp] theorem setFb_st (f : Framebuffer) : (s.setFb f).st = s.st := rfl
@[simp] theorem setFb_fb (f : Framebuffer) : (s.setFb f).fb = f := rfl
@[simp] theorem setFb_progEnd (f : Framebuffer) : (s.setFb f).progEnd = s.progEnd := rfl
@[simp] theorem setFb_run (f : Framebuffer) : (s.setFb f).run = s.run := rfl
@[simp] theorem setFb_keyWait (f : Framebuffer) : (s.setFb f).keyWait = s.keyWait := rfl
@[simp] theorem setFb_trace (f : Framebuffer) : (s.setFb f).trace = s.trace := rfl
@[simp] theorem setFb_displayAttached (f : Framebuffer) : (s.setFb f).displayAttached = s.displayAttached := rfl
@[simp] theorem setFb_inputs (f : Framebuffer) : (s.setFb f).inputs = s.inputs := rfl
@[simp] theorem setFb_getV (f : Framebuffer) (r : RegIx) : (s.setFb f).getV r = s.getV r := rfl

@[simp] theorem setKeyWait_mem (k : Option RegIx) : (s.setKeyWait k).mem = s.mem := rfl
@[simp] theorem setKeyWait_v (k : Option RegIx) : (s.setKeyWait k).v = s.v := rfl
@[simp] theorem setKeyWait_i (k : Option RegIx) : (s.setKeyWait k).i = s.i := rfl
@[simp] theorem setKeyWait_pc (k : Option RegIx) : (s.setKeyWait k).pc = s.pc := rfl
@[simp] theorem setKeyWait_stack (k : Option RegIx) : (s.setKeyWait k).stack = s.stack := rfl
@[simp] theorem setKeyWait_sp (k : Option RegIx) : (s.setKeyWait k).sp = s.sp := rfl
@[simp] theorem setKeyWait_dt (k : Option RegIx) : (s.setKeyWait k).dt = s.dt := rfl
@[simp] theorem setKeyWait_st (k : Option RegIx) : (s.setKeyWait k).st = s.st := rfl
@[simp] theorem setKeyWait_fb (k : Option RegIx) : (s.setKeyWait k).fb = s.fb := rfl
@[simp] theorem setKeyWait_progEnd (k : Option RegIx) : (s.setKeyWait k).progEnd = s.progEnd := rfl
@[simp] theorem setKeyWait_run (k : Option RegIx) : (s.setKeyWait k).run = s.run := rfl
@[simp] theorem setKeyWait_keyWait (k : Option RegIx) : (s.setKeyWait k).keyWait = k := rfl
@[simp] theorem setKeyWait_trace (k : Option RegIx) : (s.setKeyWait k).trace = s.trace := rfl
@[simp] theorem setKeyWait_displayAttached (k : Option RegIx) : (s.setKeyWait k).displayAttached = s.displayAttached := rfl
@[simp] theorem setKeyWait_inputs (k : Option RegIx) : (s.setKeyWait k).inputs = s.inputs := rfl
@[simp] theorem setKeyWait_getV (k : Option RegIx) (r : RegIx) : (s.setKeyWait k).getV r = s.getV r := rfl

@[simp] theorem setInputs_mem (inp : Inputs) : (s.setInputs inp).mem = s.mem := rfl
@[simp] theorem setInputs_v (inp : Inputs) : (s.setInputs inp).v = s.v := rfl
@[simp] theorem setInputs_i (inp : Inputs) : (s.setInputs inp).i = s.i := rfl
@[simp] theorem setInputs_pc (inp : Inputs) : (s.setInputs inp).pc = s.pc := rfl
@[simp] theorem setInputs_stack (inp : Inputs) : (s.setInputs inp).stack = s.stack := rfl
@[simp] theorem setInputs_sp (inp : Inputs) : (s.setInputs inp).sp = s.sp := rfl
@[simp] theorem setInputs_dt (inp : Inputs) : (s.setInputs inp).dt = s.dt := rfl
@[simp] theorem setInputs_st (inp : Inputs) : (s.setInputs inp).st = s.st := rfl
@[simp] theorem setInputs_fb (inp : Inputs) : (s.setInputs inp).fb = s.fb := rfl
@[simp] theorem setInputs_progEnd (inp : Inputs) : (s.setInputs inp).progEnd = s.progEnd := rfl
@[simp] theorem setInputs_run (inp : Inputs) : (s.setInputs inp).run = s.run := rfl
@[simp] theorem setInputs_keyWait (inp : Inputs) : (s.setInputs inp).keyWait = s.keyWait := rfl
@[simp] theorem setInputs_trace (inp : Inputs) : (s.setInputs inp).trace = s.trace := rfl
@[simp] theorem setInputs_displayAttached (inp : Inputs) : (s.setInputs inp).displayAttached = s.displayAttached := rfl
@[simp] theorem setInputs_inputs (inp : Inputs) : (s.setInputs inp).inputs = inp := rfl
@[simp] theorem setInputs_getV (inp : Inputs) (r : RegIx) : (s.setInputs inp).getV r = s.getV r := rfl

@[simp] theorem emit_mem (e : Event) : (s.emit e).mem = s.mem := rfl
@[simp] theorem emit_v (e : Event) : (s.emit e).v = s.v := rfl
@[simp] theorem emit_i (e : Event) : (s.emit e).i = s.i := rfl
@[simp] theorem emit_pc (e : Event) : (s.emit e).pc = s.pc := rfl
@[simp] theorem emit_stack (e : Event) : (s.emit e).stack = s.stack := rfl
@[simp] theorem emit_sp (e : Event) : (s.emit e).sp = s.sp := rfl
@[simp] theorem emit_dt (e : Event) : (s.emit e).dt = s.dt := rfl
@[simp] theorem emit_st (e : Event) : (s.emit e).st = s.st := rfl
@[simp] theorem emit_fb (e : Event) : (s.emit e).fb = s.fb := rfl
@[simp] theorem emit_progEnd (e : Event) : (s.emit e).progEnd = s.progEnd := rfl
@[simp] theorem emit_run (e : Event) : (s.emit e).run = s.run := rfl
@[simp] theorem emit_keyWait (e : Event) : (s.emit e).keyWait = s.keyWait := rfl
@[simp] theorem emit_trace (e : Event) : (s.emit e).trace = s.trace ++ [e] := rfl
@[simp] theorem emit_displayAttached (e : Event) : (s.emit e).displayAttached = s.displayAttached := rfl
@[simp] theorem emit_inputs (e : Event) : (s.emit e).inputs = s.inputs := rfl
@[simp] theorem emit_getV (e : Event) (r : RegIx) : (s.emit e).getV r = s.getV r := rfl

@[simp] theorem skipIf_mem (c : Bool) : (s.skipIf c).mem = s.mem := rfl
@[simp] theorem skipIf_v (c : Bool) : (s.skipIf c).v = s.v := rfl
@[simp] theorem skipIf_i (c : Bool) : (s.skipIf c).i = s.i := rfl
@[simp] theorem skipIf_pc (c : Bool) : (s.skipIf c).pc = if c then s.pc + 2 else s.pc := rfl
@[simp] theorem skipIf_stack (c : Bool) : (s.skipIf c).stack = s.stack := rfl
@[simp] theorem skipIf_sp (c : Bool) : (s.skipIf c).sp = s.sp := rfl
@[simp] theorem skipIf_dt (c : Bool) : (s.skipIf c).dt = s.dt := rfl
@[simp] theorem skipIf_st (c : Bool) : (s.skipIf c).st = s.st := rfl
@[simp] theorem skipIf_fb (c : Bool) : (s.skipIf c).fb = s.fb := rfl
@[simp] theorem skipIf_progEnd (c : Bool) : (s.skipIf c).progEnd = s.progEnd := rfl
@[simp] theorem skipIf_run (c : Bool) : (s.skipIf c).run = s.run := rfl
@[simp] theorem skipIf_keyWait (c : Bool) : (s.skipIf c).keyWait = s.keyWait := rfl
@[simp] theorem skipIf_trace (c : Bool) : (s.skipIf c).trace = s.trace := rfl
@[simp] theorem skipIf_displayAttached (c : Bool) : (s.skipIf c).displayAttached = s.displayAttached := rfl
@[simp] theorem skipIf_inputs (c : Bool) : (s.skipIf c).inputs = s.inputs := rfl
@[simp] theorem skipIf_getV (c : Bool) (r : RegIx) : (s.skipIf c).getV r = s.getV r := rfl

@[simp] theorem stop_mem (r : StopReason) : (s.stop r).mem = s.mem := rfl
@[simp] theorem stop_v (r : StopReason) : (s.stop r).v = s.v := rfl
@[simp] theorem stop_i (r : StopReason) : (s.stop r).i = s.i := rfl
@[simp] theorem stop_pc (r : StopReason) : (s.stop r).pc = s.pc := rfl
@[simp] theorem stop_stack (r : StopReason) : (s.stop r).stack = s.stack := rfl
@[simp] theorem stop_sp (r : StopReason) : (s.stop r).sp = s.sp := rfl
@[simp] theorem stop_dt (r : StopReason) : (s.stop r).dt = s.dt := rfl
@[simp] theorem stop_st (r : StopReason) : (s.stop r).st = s.st := rfl
@[simp] theorem stop_fb (r : StopReason) : (s.stop r).fb = s.fb := rfl
@[simp] theorem stop_progEnd (r : StopReason) : (s.stop r).progEnd = s.progEnd := rfl
@[simp] theorem stop_run (r : StopReason) : (s.stop r).run = .stopped r := rfl
@[simp] theorem stop_keyWait (r : StopReason) : (s.stop r).keyWait = s.keyWait := rfl
@[simp] theorem stop_trace (r : StopReason) : (s.stop r).trace = s.trace := rfl
@[simp] theorem stop_displayAttached (r : StopReason) : (s.stop r).displayAttached = s.displayAttached := rfl
@[simp] theorem stop_inputs (r : StopReason) : (s.stop r).inputs = s.inputs := rfl
@[simp] theorem stop_getV (e : StopReason) (r : RegIx) : (s.stop e).getV r = s.getV r := rfl

@[simp] theorem raise_mem (c : FaultCause) (a : Word) (w : Option Word) : (s.raise c a w).mem = s.mem := rfl
@[simp] theorem raise_v (c : FaultCause) (a : Word) (w : Option Word) : (s.raise c a w).v = s.v := rfl
@[simp] theorem raise_i (c : FaultCause) (a : Word) (w : Option Word) : (s.raise c a w).i = s.i := rfl
@[simp] theorem raise_pc (c : FaultCause) (a : Word) (w : Option Word) : (s.raise c a w).pc = s.pc := rfl
@[simp] theorem raise_stack (c : FaultCause) (a : Word) (w : Option Word) : (s.raise c a w).stack = s.stack := rfl
@[simp] theorem raise_sp (c : FaultCause) (a : Word) (w : Option Word) : (s.raise c a w).sp = s.sp := rfl
@[simp] theorem raise_dt (c : FaultCause) (a : Word) (w : Option Word) : (s.raise c a w).dt = s.dt := rfl
@[simp] theorem raise_st (c : FaultCause) (a : Word) (w : Option Word) : (s.raise c a w).st = s.st := rfl
@[simp] theorem raise_fb (c : FaultCause) (a : Word) (w : Option Word) : (s.raise c a w).fb = s.fb := rfl
@[simp] theorem raise_progEnd (c : FaultCause) (a : Word) (w : Option Word) : (s.raise c a w).progEnd = s.progEnd := rfl
@[simp] theorem raise_run (c : FaultCause) (a : Word) (w : Option Word) : (s.raise c a w).run = .stopped (.fault ⟨c, a, w⟩) := rfl
@[simp] theorem raise_keyWait (c : FaultCause) (a : Word) (w : Option Word) : (s.raise c a w).keyWait = s.keyWait := rfl
@[simp] theorem raise_trace (c : FaultCause) (a : Word) (w : Option Word) : (s.raise c a w).trace = s.trace := rfl
@[simp] theorem raise_displayAttached (c : FaultCause) (a : Word) (w : Option Word) : (s.raise c a w).displayAttached = s.displayAttached := rfl
@[simp] theorem raise_inputs (c : FaultCause) (a : Word) (w : Option Word) : (s.raise c a w).inputs = s.inputs := rfl
@[simp] theorem raise_getV (c : FaultCause) (a : Word) (w : Option Word) (r : RegIx) : (s.raise c a w).getV r = s.getV r := rfl

@[simp] theorem raiseFrom_mem (n : Instr) (c : FaultCause) : (s.raiseFrom n c).mem = s.mem := rfl
@[simp] theorem raiseFrom_v (n : Instr) (c : FaultCause) : (s.raiseFrom n c).v = s.v := rfl
@[simp] theorem raiseFrom_i (n : Instr) (c : FaultCause) : (s.raiseFrom n c).i = s.i := rfl
@[simp] theorem raiseFrom_pc (n : Instr) (c : FaultCause) : (s.raiseFrom n c).pc = s.pc := rfl
@[simp] theorem raiseFrom_stack (n : Instr) (c : FaultCause) : (s.raiseFrom n c).stack = s.stack := rfl
@[simp] theorem raiseFrom_sp (n : Instr) (c : FaultCause) : (s.raiseFrom n c).sp = s.sp := rfl
@[simp] theorem raiseFrom_dt (n : Instr) (c : FaultCause) : (s.raiseFrom n c).dt = s.dt := rfl
@[simp] theorem raiseFrom_st (n : Instr) (c : FaultCause) : (s.raiseFrom n c).st = s.st := rfl
@[simp] theorem raiseFrom_fb (n : Instr) (c : FaultCause) : (s.raiseFrom n c).fb = s.fb := rfl
@[simp] theorem raiseFrom_progEnd (n : Instr) (c : FaultCause) : (s.raiseFrom n c).progEnd = s.progEnd := rfl
@[simp] theorem raiseFrom_run (n : Instr) (c : FaultCause) : (s.raiseFrom n c).run = .stopped (.fault ⟨c, s.pc - 2, some (encode n)⟩) := rfl
@[simp] theorem raiseFrom_keyWait (n : Instr) (c : FaultCause) : (s.raiseFrom n c).keyWait = s.keyWait := rfl
@[simp] theorem raiseFrom_trace (n : Instr) (c : FaultCause) : (s.raiseFrom n c).trace = s.trace := rfl
@[simp] theorem raiseFrom_displayAttached (n : Instr) (c : FaultCause) : (s.raiseFrom n c).displayAttached = s.displayAttached := rfl
@[simp] theorem raiseFrom_inputs (n : Instr) (c : FaultCause) : (s.raiseFrom n c).inputs = s.inputs := rfl
@[simp] theorem raiseFrom_getV (n : Instr) (c : FaultCause) (r : RegIx) : (s.raiseFrom n c).getV r = s.getV r := rfl

@[simp] theorem setResult_mem (x : RegIx) (b : Byte) (f : Bool) : (s.setResult x b f).mem = s.mem := rfl
@[simp] theorem setResult_v (x : RegIx) (b : Byte) (f : Bool) : (s.setResult x b f).v = (s.v.set x b).set 15 (flagByte f) := rfl
@[simp] theorem setResult_i (x : RegIx) (b : Byte) (f : Bool) : (s.setResult x b f).i = s.i := rfl
@[simp] theorem setResult_pc (x : RegIx) (b : Byte) (f : Bool) : (s.setResult x b f).pc = s.pc := rfl
@[simp] theorem setResult_stack (x : RegIx) (b : Byte) (f : Bool) : (s.setResult x b f).stack = s.stack := rfl
@[simp] theorem setResult_sp (x : RegIx) (b : Byte) (f : Bool) : (s.setResult x b f).sp = s.sp := rfl
@[simp] theorem setResult_dt (x : RegIx) (b : Byte) (f : Bool) : (s.setResult x b f).dt = s.dt := rfl
@[simp] theorem setResult_st (x : RegIx) (b : Byte) (f : Bool) : (s.setResult x b f).st = s.st := rfl
@[simp] theorem setResult_fb (x : RegIx) (b : Byte) (f : Bool) : (s.setResult x b f).fb = s.fb := rfl
@[simp] theorem setResult_progEnd (x : RegIx) (b : Byte) (f : Bool) : (s.setResult x b f).progEnd = s.progEnd := rfl
@[simp] theorem setResult_run (x : RegIx) (b : Byte) (f : Bool) : (s.setResult x b f).run = s.run := rfl
@[simp] theorem setResult_keyWait (x : RegIx) (b : Byte) (f : Bool) : (s.setResult x b f).keyWait = s.keyWait := rfl
@[simp] theorem setResult_trace (x : RegIx) (b : Byte) (f : Bool) : (s.setResult x b f).trace = s.trace := rfl
@[simp] theorem setResult_displayAttached (x : RegIx) (b : Byte) (f : Bool) : (s.setResult x b f).displayAttached = s.displayAttached := rfl
@[simp] theorem setResult_inputs (x : RegIx) (b : Byte) (f : Bool) : (s.setResult x b f).inputs = s.inputs := rfl

@[simp] theorem tickDelay_mem : (s.tickDelay).mem = s.mem := rfl
@[simp] theorem tickDelay_v : (s.tickDelay).v = s.v := rfl
@[simp] theorem tickDelay_i : (s.tickDelay).i = s.i := rfl
@[simp] theorem tickDelay_pc : (s.tickDelay).pc = s.pc := rfl
@[simp] theorem tickDelay_stack : (s.tickDelay).stack = s.stack := rfl
@[simp] theorem tickDelay_sp : (s.tickDelay).sp = s.sp := rfl
@[simp] theorem tickDelay_dt : (s.tickDelay).dt = countDown s.dt := rfl
@[simp] theorem tickDelay_st : (s.tickDelay).st = s.st := rfl
@[simp] theorem tickDelay_fb : (s.tickDelay).fb = s.fb := rfl
@[simp] theorem tickDelay_progEnd : (s.tickDelay).progEnd = s.progEnd := rfl
@[simp] theorem tickDelay_run : (s.tickDelay).run = s.run := rfl
@[simp] theorem tickDelay_keyWait : (s.tickDelay).keyWait = s.keyWait := rfl
@[simp] theorem tickDelay_trace : (s.tickDelay).trace = s.trace := rfl
@[simp] theorem tickDelay_displayAttached : (s.tickDelay).displayAttached = s.displayAttached := rfl
@[simp] theorem tickDelay_inputs : (s.tickDelay).inputs = s.inputs := rfl
@[simp] theorem tickDelay_getV (r : RegIx) : (s.tickDelay).getV r = s.getV r := rfl

@[simp] theorem drawStopBeforeKey_mem : (s.drawStopBeforeKey.2).mem = s.mem := rfl
@[simp] theorem drawStopBeforeKey_v : (s.drawStopBeforeKey.2).v = s.v := rfl
@[simp] theorem drawStopBeforeKey_i : (s.drawStopBeforeKey.2).i = s.i := rfl
@[simp] theorem drawStopBeforeKey_pc : (s.drawStopBeforeKey.2).pc = s.pc := rfl
@[simp] theorem drawStopBeforeKey_stack : (s.drawStopBeforeKey.2).stack = s.stack := rfl
@[simp] theorem drawStopBeforeKey_sp : (s.drawStopBeforeKey.2).sp = s.sp := rfl
@[simp] theorem drawStopBeforeKey_dt : (s.drawStopBeforeKey.2).dt = s.dt := rfl
@[simp] theorem drawStopBeforeKey_st : (s.drawStopBeforeKey.2).st = s.st := rfl
@[simp] theorem drawStopBeforeKey_fb : (s.drawStopBeforeKey.2).fb = s.fb := rfl
@[simp] theorem drawStopBeforeKey_progEnd : (s.drawStopBeforeKey.2).progEnd = s.progEnd := rfl
@[simp] theorem drawStopBeforeKey_run : (s.drawStopBeforeKey.2).run = s.run := rfl
@[simp] theorem drawStopBeforeKey_keyWait : (s.drawStopBeforeKey.2).keyWait = s.keyWait := rfl
@[simp] theorem drawStopBeforeKey_trace : (s.drawStopBeforeKey.2).trace = s.trace := rfl
@[simp] theorem drawStopBeforeKey_displayAttached : (s.drawStopBeforeKey.2).displayAttached = s.displayAttached := rfl
@[simp] theorem drawStopBeforeKey_inputs : (s.drawStopBeforeKey.2).inputs = s.inputs.drawn := rfl
@[simp] theorem drawStopBeforeKey_getV (r : RegIx) : (s.drawStopBeforeKey.2).getV r = s.getV r := rfl

@[simp] theorem drawIsOpen_mem : (s.drawIsOpen).2.mem = s.mem := by unfold State.drawIsOpen; split <;> rfl
@[simp] theorem drawIsOpen_v : (s.drawIsOpen).2.v = s.v := by unfold State.drawIsOpen; split <;> rfl
@[simp] theorem drawIsOpen_i : (s.drawIsOpen).2.i = s.i := by unfold State.drawIsOpen; split <;> rfl
@[simp] theorem drawIsOpen_pc : (s.drawIsOpen).2.pc = s.pc := by unfold State.drawIsOpen; split <;> rfl
@[simp] theorem drawIsOpen_stack : (s.drawIsOpen).2.stack = s.stack := by unfold State.drawIsOpen; split <;> rfl
@[simp] theorem drawIsOpen_sp : (s.drawIsOpen).2.sp = s.sp := by unfold State.drawIsOpen; split <;> rfl
@[simp] theorem drawIsOpen_dt : (s.drawIsOpen).2.dt = s.dt := by unfold State.drawIsOpen; split <;> rfl
@[simp] theorem drawIsOpen_st : (s.drawIsOpen).2.st = s.st := by unfold State.drawIsOpen; split <;> rfl
@[simp] theorem drawIsOpen_fb : (s.drawIsOpen).2.fb = s.fb := by unfold State.drawIsOpen; split <;> rfl
@[simp] theorem drawIsOpen_progEnd : (s.drawIsOpen).2.progEnd = s.progEnd := by unfold State.drawIsOpen; split <;> rfl
@[simp] theorem drawIsOpen_run : (s.drawIsOpen).2.run = s.run := by unfold State.drawIsOpen; split <;> rfl
@[simp] theorem drawIsOpen_keyWait : (s.drawIsOpen).2.keyWait = s.keyWait := by unfold State.drawIsOpen; split <;> rfl
@[simp] theorem drawIsOpen_trace : (s.drawIsOpen).2.trace = s.trace := by unfold State.drawIsOpen; split <;> rfl
@[simp] theorem drawIsOpen_displayAttached : (s.drawIsOpen).2.displayAttached = s.displayAttached := by unfold State.drawIsOpen; split <;> rfl
@[simp] theorem drawIsOpen_getV (r : RegIx) : (s.drawIsOpen).2.getV r = s.getV r := by unfold State.drawIsOpen; split <;> rfl

@[simp] theorem drawKeyHeld_mem (k : Key) : (s.drawKeyHeld k).2.mem = s.mem := by unfold State.drawKeyHeld; split <;> rfl
@[simp] theorem drawKeyHeld_v (k : Key) : (s.drawKeyHeld k).2.v = s.v := by unfold State.drawKeyHeld; split <;> rfl
@[simp] theorem drawKeyHeld_i (k : Key) : (s.drawKeyHeld k).2.i = s.i := by unfold State.drawKeyHeld; split <;> rfl
@[simp] theorem drawKeyHeld_pc (k : Key) : (s.drawKeyHeld k).2.pc = s.pc := by unfold State.drawKeyHeld; split <;> rfl
@[simp] theorem drawKeyHeld_stack (k : Key) : (s.drawKeyHeld k).2.stack = s.stack := by unfold State.drawKeyHeld; split <;> rfl
@[simp] theorem drawKeyHeld_sp (k : Key) : (s.drawKeyHeld k).2.sp = s.sp := by unfold State.drawKeyHeld; split <;> rfl
@[simp] theorem drawKeyHeld_dt (k : Key) : (s.drawKeyHeld k).2.dt = s.dt := by unfold State.drawKeyHeld; split <;> rfl
@[simp] theorem drawKeyHeld_st (k : Key) : (s.drawKeyHeld k).2.st = s.st := by unfold State.drawKeyHeld; split <;> rfl
@[simp] theorem drawKeyHeld_fb (k : Key) : (s.drawKeyHeld k).2.fb = s.fb := by unfold State.drawKeyHeld; split <;> rfl
@[simp] theorem drawKeyHeld_progEnd (k : Key) : (s.drawKeyHeld k).2.progEnd = s.progEnd := by unfold State.drawKeyHeld; split <;> rfl
@[simp] theorem drawKeyHeld_run (k : Key) : (s.drawKeyHeld k).2.run = s.run := by unfold State.drawKeyHeld; split <;> rfl
@[simp] theorem drawKeyHeld_keyWait (k : Key) : (s.drawKeyHeld k).2.keyWait = s.keyWait := by unfold State.drawKeyHeld; split <;> rfl
@[simp] theorem drawKeyHeld_trace (k : Key) : (s.drawKeyHeld k).2.trace = s.trace := by unfold State.drawKeyHeld; split <;> rfl
@[simp] theorem drawKeyHeld_displayAttached (k : Key) : (s.drawKeyHeld k).2.displayAttached = s.displayAttached := by unfold State.drawKeyHeld; split <;> rfl
@[simp] theorem drawKeyHeld_getV (k : Key) (r : RegIx) : (s.drawKeyHeld k).2.getV r = s.getV r := by unfold State.drawKeyHeld; split <;> rfl

@[simp] theorem drawRandByte_mem : (s.drawRandByte).2.mem = s.mem := by unfold State.drawRandByte; split <;> rfl
@[simp] theorem drawRandByte_v : (s.drawRandByte).2.v = s.v := by unfold State.drawRandByte; split <;> rfl
@[simp] theorem drawRandByte_i : (s.drawRandByte).2.i = s.i := by unfold State.drawRandByte; split <;> rfl
@[simp] theorem drawRandByte_pc : (s.drawRandByte).2.pc = s.pc := by unfold State.drawRandByte; split <;> rfl
@[simp] theorem drawRandByte_stack : (s.drawRandByte).2.stack = s.stack := by unfold State.drawRandByte; split <;> rfl
@[simp] theorem drawRandByte_sp : (s.drawRandByte).2.sp = s.sp := by unfold State.drawRandByte; split <;> rfl
@[simp] theorem drawRandByte_dt : (s.drawRandByte).2.dt = s.dt := by unfold State.drawRandByte; split <;> rfl
@[simp] theorem drawRandByte_st : (s.drawRandByte).2.st = s.st := by unfold State.drawRandByte; split <;> rfl
@[simp] theorem drawRandByte_fb : (s.drawRandByte).2.fb = s.fb := by unfold State.drawRandByte; split <;> rfl
@[simp] theorem drawRandByte_progEnd : (s.drawRandByte).2.progEnd = s.progEnd := by unfold State.drawRandByte; split <;> rfl
@[simp] theorem drawRandByte_run : (s.drawRandByte).2.run = s.run := by unfold State.drawRandByte; split <;> rfl
@[simp] theorem drawRandByte_keyWait : (s.drawRandByte).2.keyWait = s.keyWait := by unfold State.drawRandByte; split <;> rfl
@[simp] theorem drawRandByte_trace : (s.drawRandByte).2.trace = s.trace := by unfold State.drawRandByte; split <;> rfl
@[simp] theorem drawRandByte_displayAttached : (s.drawRandByte).2.displayAttached = s.displayAttached := by unfold State.drawRandByte; split <;> rfl
@[simp] theorem drawRandByte_getV (r : RegIx) : (s.drawRandByte).2.getV r = s.getV r := by unfold State.drawRandByte; split <;> rfl

@[simp] theorem timerTick_mem : s.timerTick.mem = s.mem := by unfold State.timerTick State.tickSound; split <;> rfl
@[simp] theorem timerTick_v : s.timerTick.v = s.v := by unfold State.timerTick State.tickSound; split <;> rfl
@[simp] theorem timerTick_i : s.timerTick.i = s.i := by unfold State.timerTick State.tickSound; split <;> rfl
@[simp] theorem timerTick_pc : s.timerTick.pc = s.pc := by unfold State.timerTick State.tickSound; split <;> rfl
@[simp] theorem timerTick_stack : s.timerTick.stack = s.stack := by unfold State.timerTick State.tickSound; split <;> rfl
@[simp] theorem timerTick_sp : s.timerTick.sp = s.sp := by unfold State.timerTick State.tickSound; split <;> rfl
@[simp] theorem timerTick_dt : s.timerTick.dt = countDown s.dt := by unfold State.timerTick State.tickSound; split <;> rfl
@[simp] theorem timerTick_fb : s.timerTick.fb = s.fb := by unfold State.timerTick State.tickSound; split <;> rfl
@[simp] theorem timerTick_progEnd : s.timerTick.progEnd = s.progEnd := by unfold State.timerTick State.tickSound; split <;> rfl
@[simp] theorem timerTick_run : s.timerTick.run = s.run := by unfold State.timerTick State.tickSound; split <;> rfl
@[simp] theorem timerTick_keyWait : s.timerTick.keyWait = s.keyWait := by unfold State.timerTick State.tickSound; split <;> rfl
@[simp] theorem timerTick_displayAttached : s.timerTick.displayAttached = s.displayAttached := by unfold State.timerTick State.tickSound; split <;> rfl
@[simp] theorem timerTick_inputs : s.timerTick.inputs = s.inputs := by unfold State.timerTick State.tickSound; split <;> rfl
@[simp] theorem timerTick_getV (r : RegIx) : s.timerTick.getV r = s.getV r := by unfold State.timerTick State.tickSound; split <;> rfl

/-- The sound timer's tick, by whether it was nonzero (R122). -/
theorem timerTick_cases :
    (s.st = 0 ∧ s.timerTick = s.tickDelay) ∨
    (s.st ≠ 0 ∧ s.timerTick = (s.tickDelay.setSt (countDown s.st)).emit .tone) := by
  unfold State.timerTick State.tickSound
  by_cases h : s.tickDelay.st = 0
  · exact .inl ⟨h, if_pos h⟩
  · exact .inr ⟨h, if_neg h⟩

/-- A zero sound timer stays zero; a nonzero one loses one (R121, R122). -/
@[simp] theorem timerTick_st : s.timerTick.st = countDown s.st := by
  obtain ⟨h, e⟩ | ⟨-, e⟩ := timerTick_cases s
  · rw [e, tickDelay_st, countDown, if_pos h]
  · rw [e]; rfl

/-- One Tone per tick in which ST was nonzero (R122, R268). -/
@[simp] theorem timerTick_trace : s.timerTick.trace = if s.st = 0 then s.trace else s.trace ++ [.tone] := by
  obtain ⟨h, e⟩ | ⟨h, e⟩ := timerTick_cases s
  · rw [e, if_pos h]; rfl
  · rw [e, if_neg h]; rfl

end Sys2Proof.Machine
end

