-- ==== Sys2Proof/Laws/Memory.lean ====
section
/-! SUPPORT. Memory laws: a read after a write, and the canonical form that every memory operation keeps. -/

namespace Sys2Proof.Machine

@[simp] theorem read_nil (a : Nat) : Memory.read [] a = Memory.initial a := rfl

theorem read_cons (k : Nat) (c : Byte) (m : Memory) (a : Nat) :
    Memory.read ((k, c) :: m) a = if a = k then c else m.read a := rfl

/-- Below every listed address memory reads as construction left it. -/
theorem read_below {lo a : Nat} {m : Memory} (h : Memory.wfFrom lo m = true) (ha : a < lo) :
    m.read a = Memory.initial a := by
  induction m generalizing lo with
  | nil => rfl
  | cons c m ih =>
    obtain ⟨k, b⟩ := c
    simp only [Memory.wfFrom, Bool.and_eq_true, decide_eq_true_eq] at h
    rw [read_cons, if_neg (by omega), ih h.2 (by omega)]

/-- A cell put in front of cells above it is read back, and hides nothing else. -/
theorem read_cell {m : Memory} {a : Nat} (h : Memory.wfFrom (a + 1) m = true) (b : Byte) (a' : Nat) :
    (Memory.cell a b m).read a' = if a' = a then b else m.read a' := by
  unfold Memory.cell
  split
  · next hb =>
    split
    · next ha => rw [ha, read_below h (by omega), hb]
    · rfl
  · rfl

theorem wfFrom_mono {lo lo' : Nat} {m : Memory} (h : Memory.wfFrom lo m = true) (hlo : lo' ≤ lo) :
    Memory.wfFrom lo' m = true := by
  cases m with
  | nil => rfl
  | cons c m =>
    obtain ⟨k, b⟩ := c
    simp only [Memory.wfFrom, Bool.and_eq_true, decide_eq_true_eq] at h ⊢
    exact ⟨⟨⟨by omega, h.1.1.2⟩, h.1.2⟩, h.2⟩

theorem wfFrom_cell {lo a : Nat} {m : Memory} (h : Memory.wfFrom (a + 1) m = true) (b : Byte) (hlo : lo ≤ a)
    (ha : a < Config.memSize) : Memory.wfFrom lo (Memory.cell a b m) = true := by
  unfold Memory.cell
  split
  · exact wfFrom_mono h (by omega)
  · next hb => simp [Memory.wfFrom, hlo, ha, hb, h]

/-- Read after write (R59), in canonical memory. -/
theorem read_write_from {lo : Nat} {m : Memory} (h : Memory.wfFrom lo m = true) (a : Nat) (b : Byte) (a' : Nat) :
    (m.write a b).read a' = if a' = a then b else m.read a' := by
  induction m generalizing lo with
  | nil => exact read_cell (m := []) rfl b a'
  | cons c m ih =>
    obtain ⟨k, c⟩ := c
    have h' := h
    simp only [Memory.wfFrom, Bool.and_eq_true, decide_eq_true_eq] at h
    simp only [Memory.write]
    split
    · next hk =>
      refine read_cell ?_ b a'
      simp only [Memory.wfFrom, Bool.and_eq_true, decide_eq_true_eq]
      exact ⟨⟨⟨by omega, h.1.1.2⟩, h.1.2⟩, h.2⟩
    · split
      · next hk =>
        subst hk
        rw [read_cell h.2, read_cons]
        split <;> rfl
      · next hlt hne =>
        rw [read_cons, read_cons, ih h.2]
        by_cases hak : a' = k
        · rw [if_pos hak, if_pos hak, if_neg (by omega)]
        · rw [if_neg hak, if_neg hak]

theorem wfFrom_write {lo : Nat} {m : Memory} (h : Memory.wfFrom lo m = true) {a : Nat} (b : Byte) (hlo : lo ≤ a)
    (ha : a < Config.memSize) : Memory.wfFrom lo (m.write a b) = true := by
  induction m generalizing lo with
  | nil => exact wfFrom_cell (m := []) rfl b hlo ha
  | cons c m ih =>
    obtain ⟨k, c⟩ := c
    simp only [Memory.wfFrom, Bool.and_eq_true, decide_eq_true_eq] at h
    simp only [Memory.write]
    split
    · next hk =>
      refine wfFrom_cell ?_ b hlo ha
      simp only [Memory.wfFrom, Bool.and_eq_true, decide_eq_true_eq]
      exact ⟨⟨⟨by omega, h.1.1.2⟩, h.1.2⟩, h.2⟩
    · split
      · next hk => subst hk; exact wfFrom_cell h.2 b hlo ha
      · next hlt hne =>
        simp only [Memory.wfFrom, Bool.and_eq_true, decide_eq_true_eq]
        exact ⟨h.1, ih h.2 (by omega)⟩

/-- Read after write (R59). -/
theorem read_write {m : Memory} (h : m.wf = true) (a : Nat) (b : Byte) (a' : Nat) :
    (m.write a b).read a' = if a' = a then b else m.read a' :=
  read_write_from h a b a'

/-- A write below MEM_SIZE keeps the canonical form. -/
theorem wf_write {m : Memory} (h : m.wf = true) {a : Nat} (b : Byte) (ha : a < Config.memSize) :
    (m.write a b).wf = true :=
  wfFrom_write h b (Nat.zero_le a) ha

/-- A block that passes the range check and is written keeps the canonical form (R12, R254). -/
theorem wf_writeBlock {m : Memory} (h : m.wf = true) {a : Nat} {bs : List Byte} (ha : a + bs.length ≤ Config.memSize) :
    (m.writeBlock a bs).wf = true := by
  induction bs generalizing m a with
  | nil => exact h
  | cons b bs ih =>
    simp only [List.length_cons] at ha
    exact ih (wf_write h b (by omega)) (by omega)

/-- What a block write does to every address: byte `k` stands at `a + k`, everything outside reads as before. -/
theorem read_writeBlock {m : Memory} (h : m.wf = true) {a : Nat} {bs : List Byte} (ha : a + bs.length ≤ Config.memSize)
    (a' : Nat) :
    (m.writeBlock a bs).read a' = if a ≤ a' ∧ a' < a + bs.length then bs.getD (a' - a) 0 else m.read a' := by
  induction bs generalizing m a with
  | nil => simp only [Memory.writeBlock, List.length_nil]; rw [if_neg (by omega)]
  | cons b bs ih =>
    simp only [List.length_cons] at ha ⊢
    rw [Memory.writeBlock, ih (wf_write h b (by omega)) (by omega), read_write h]
    obtain hlt | heq | hgt := Nat.lt_trichotomy a' a
    · rw [if_neg (by omega), if_neg (by omega), if_neg (by omega)]
    · subst heq; rw [if_neg (by omega), if_pos rfl, if_pos (by omega)]; simp
    · have h1 : a' - a = (a' - (a + 1)) + 1 := by omega
      by_cases hin : a' < a + (bs.length + 1)
      · rw [if_pos (by omega), if_pos (by omega), h1]; simp
      · rw [if_neg (by omega), if_neg (by omega), if_neg (by omega)]

@[simp] theorem readBlock_length (m : Memory) (a n : Nat) : (m.readBlock a n).length = n := by
  induction n generalizing a with
  | zero => rfl
  | succ n ih => simp [Memory.readBlock, ih]

/-- Byte `k` of a block read is the byte at `a + k` (R52). -/
theorem readBlock_getD (m : Memory) (a n k : Nat) (d : Byte) :
    (m.readBlock a n).getD k d = if k < n then m.read (a + k) else d := by
  induction n generalizing a k with
  | zero => simp [Memory.readBlock]
  | succ n ih =>
    cases k with
    | zero => simp [Memory.readBlock]
    | succ k =>
      rw [Memory.readBlock, List.getD_cons_succ, ih]
      simp only [Nat.add_lt_add_iff_right, show a + 1 + k = a + (k + 1) by omega]

/-- What the range check says (R12): nothing to access, or the last address is at most 0xFFF. -/
theorem inRange_iff (base count : Nat) : inRange base count = true ↔ count = 0 ∨ base + count ≤ Config.memSize := by
  simp only [inRange, Bool.or_eq_true, decide_eq_true_eq, Config.memSize]
  omega

end Sys2Proof.Machine
end

