-- ==== Sys2Proof/Laws/Registers.lean ====
section
/-! SUPPORT. Reading a register after a write, the call stack's operations, and the register blocks of Fx55 and Fx65. -/

namespace Sys2Proof.Machine

/-- Read after write of a variable register. -/
theorem getV_setV (s : State) (x r : RegIx) (b : Byte) :
    (s.setV x b).getV r = if r = x then b else s.getV r := by
  simp only [State.getV, State.setV, Fin.getElem_fin, Vector.getElem_set, Fin.ext_iff, eq_comm]

@[simp] theorem getV_setV_same (s : State) (x : RegIx) (b : Byte) : (s.setV x b).getV x = b := by
  simp [getV_setV]

@[simp] theorem getV_setV_other (s : State) {x r : RegIx} (b : Byte) (h : r ≠ x) :
    (s.setV x b).getV r = s.getV r := by
  simp [getV_setV, h]

/-- Result first, flag last: the flag wins in VF (R160). -/
theorem getV_setResult (s : State) (x r : RegIx) (b : Byte) (f : Bool) :
    (s.setResult x b f).getV r = if r = flagReg then flagByte f else if r = x then b else s.getV r := by
  simp only [State.setResult, getV_setV]

/-- Two states with the same sixteen registers have the same register file. -/
theorem v_ext {s t : State} (h : ∀ r : RegIx, s.getV r = t.getV r) : s.v = t.v := by
  apply Vector.ext
  intro k hk
  exact h ⟨k, hk⟩

/-- Three decimal digits (R213). -/
@[simp] theorem bcdDigits_length (b : Byte) : (bcdDigits b).length = 3 := rfl

/-- What a push does (R143): it fails exactly at SP = 16; otherwise slot SP takes the address and SP grows by one. -/
theorem push_cases (s : State) (ra : Word) :
    (s.sp.val = 16 ∧ s.push ra = none) ∨
    ∃ h : s.sp.val < 16, s.push ra =
      some { s with stack := s.stack.set s.sp.val ra, sp := ⟨s.sp.val + 1, by omega⟩ } := by
  unfold State.push
  have := s.sp.isLt
  split
  · next h => exact .inr ⟨h, rfl⟩
  · next h => exact .inl ⟨by omega, rfl⟩

/-- What a pop does (R141, R30): it fails exactly at SP = 0; otherwise SP shrinks by one and every slot keeps its value. -/
theorem pop_cases (s : State) :
    (s.sp.val = 0 ∧ s.pop = none) ∨
    ∃ h : 0 < s.sp.val, s.pop =
      some (s.stack[s.sp.val - 1]'(by omega), { s with sp := ⟨s.sp.val - 1, by omega⟩ }) := by
  unfold State.pop
  split
  · next h => exact .inr ⟨h, rfl⟩
  · next h => exact .inl ⟨by omega, rfl⟩

/-- The block of V0 to V[n-1] holds `V[k]` at place `k`. -/
theorem regBlock_getElem? (s : State) (n k : Nat) (hk : k < n) (hn : n ≤ 16) :
    (s.regBlock n)[k]? = some (s.getV ⟨k, by omega⟩) := by
  simp only [State.regBlock, List.getElem?_take, hk, if_true, State.getV]
  rw [List.getElem?_eq_getElem (by simp; omega)]
  simp

@[simp] theorem regBlock_length (s : State) (n : Nat) : (s.regBlock n).length = min n 16 := by
  simp [State.regBlock]

/-- Loading bytes from register `k` up: register `k + j` takes byte `j`, every other keeps its value. -/
theorem getElem_loadBlock (bs : List Byte) (v : Vector Byte 16) (k : Nat) (r : RegIx) :
    (loadBlock v k bs)[r] = if k ≤ r.val then bs.getD (r.val - k) v[r] else v[r] := by
  induction bs generalizing v k with
  | nil => simp [loadBlock]
  | cons b bs ih =>
    rw [loadBlock, ih]
    simp only [Fin.getElem_fin, Vector.getElem_setIfInBounds]
    obtain h | h | h := Nat.lt_trichotomy k r.val
    · have h1 : r.val - k = (r.val - (k + 1)) + 1 := by omega
      simp [h.le, Nat.succ_le_of_lt h, h.ne, h1]
    · subst h; simp
    · simp [Nat.not_le.mpr h, show ¬ k + 1 ≤ r.val by omega, h.ne']

end Sys2Proof.Machine
end

