-- ==== Sys2Proof/Laws/Screen.lean ====
section
/-! SUPPORT. The blitter, pixel by pixel: one lemma for each of its functions. -/

namespace Sys2Proof.Machine

/-- Toggling a pixel inverts it and no other (R192). -/
theorem pixel_togglePixel (fb : Framebuffer) (r r' : Fin 32) (c c' : Fin 64) :
    pixel (togglePixel fb r c) r' c' = (pixel fb r' c' ^^ decide (r' = r ∧ c' = c)) := by
  unfold pixel togglePixel
  simp only [Fin.getElem_fin, Vector.getElem_set]
  by_cases hr : r' = r
  · subst hr
    have hc : (c' = c) ↔ (63 - c.val = 63 - c'.val) := by
      rw [Fin.ext_iff]; have := c.isLt; have := c'.isLt; omega
    simp [BitVec.getMsbD_eq_getLsbD, BitVec.getLsbD_twoPow, hc]
    omega
  · have : ¬ r.val = r'.val := fun h => hr (Fin.ext h.symm)
    simp [hr, this]

/-- Every pixel of the cleared framebuffer is off (R191). -/
@[simp] theorem pixel_clearFb (r : Fin 32) (c : Fin 64) : pixel clearFb r c = false := by
  simp [pixel, clearFb]

/-- Two framebuffers with the same pixels are equal. -/
theorem framebuffer_ext {f g : Framebuffer} (h : ∀ r c, pixel f r c = pixel g r c) : f = g := by
  apply Vector.ext
  intro r hr
  apply BitVec.eq_of_getMsbD_eq
  intro c hc
  exact h ⟨r, hr⟩ ⟨c, hc⟩

/-- One plotted pixel: it toggles its target if the bit is set and the target is in bounds (R194). -/
theorem pixel_plotPixel (acc : Framebuffer × Bool) (bit : Bool) (row col : Nat) (r : Fin 32) (c : Fin 64) :
    pixel (plotPixel acc bit row col).1 r c = (pixel acc.1 r c ^^ (bit && decide (r.val = row ∧ c.val = col))) := by
  unfold plotPixel
  split
  · next h => simp [pixel_togglePixel, h.1, Fin.ext_iff]
  · next h =>
    have h1 : ¬ (bit = true ∧ r.val = row ∧ c.val = col) := fun ⟨a, b, d⟩ => h ⟨a, by omega, by omega⟩
    cases bit with
    | false => simp
    | true =>
      have h2 : ¬ (r.val = row ∧ c.val = col) := fun ⟨b, d⟩ => h1 ⟨rfl, b, d⟩
      rw [decide_eq_false h2]; simp

/-- One plotted pixel collides if it was on and is now toggled (R193). -/
theorem collide_plotPixel (acc : Framebuffer × Bool) (bit : Bool) (row col : Nat) :
    (plotPixel acc bit row col).2 = true ↔
      acc.2 = true ∨ ∃ r : Fin 32, ∃ c : Fin 64, bit = true ∧ r.val = row ∧ c.val = col ∧ pixel acc.1 r c = true := by
  unfold plotPixel
  split
  · next h =>
    simp only [Bool.or_eq_true]
    refine or_congr_right ⟨fun hp => ⟨_, _, h.1, rfl, rfl, hp⟩, ?_⟩
    rintro ⟨r, c, -, rfl, rfl, hp⟩
    exact hp
  · next h =>
    refine ⟨Or.inl, ?_⟩
    rintro (hp | ⟨r, c, hb, hr, hc, -⟩)
    · exact hp
    · exact absurd ⟨hb, by omega, by omega⟩ h

/-- The first `k` pixels of a row: pixel (r, c) is toggled iff it lies on the row and its bit is set (R192, R194). -/
theorem pixel_plotBits (b : Byte) (row cx : Nat) (acc : Framebuffer × Bool) (k : Nat) (r : Fin 32) (c : Fin 64) :
    pixel (plotBits b row cx acc k).1 r c =
      (pixel acc.1 r c ^^ (decide (r.val = row ∧ cx ≤ c.val ∧ c.val < cx + k) && b.getMsbD (c.val - cx))) := by
  induction k with
  | zero =>
    have : ¬ (r.val = row ∧ cx ≤ c.val ∧ c.val < cx + 0) := by omega
    simp only [plotBits, decide_eq_false this, Bool.false_and, Bool.xor_false]
  | succ k ih =>
    rw [plotBits, pixel_plotPixel, ih]
    by_cases hr : r.val = row
    · obtain hlt | heq | hgt := Nat.lt_trichotomy c.val (cx + k)
      · simp [hr, hlt, hlt.ne, show c.val < cx + (k + 1) by omega]
      · simp [hr, heq]
      · simp [hr, hgt.ne', show ¬ c.val < cx + k by omega, show ¬ c.val < cx + (k + 1) by omega]
    · simp [hr]

/-- The first `k` pixels of a row collide iff one of them was on before (R193): no pixel is plotted twice. -/
theorem collide_plotBits (b : Byte) (row cx : Nat) (acc : Framebuffer × Bool) (k : Nat) :
    (plotBits b row cx acc k).2 = true ↔
      acc.2 = true ∨ ∃ r : Fin 32, ∃ c : Fin 64,
        (r.val = row ∧ cx ≤ c.val ∧ c.val < cx + k) ∧ b.getMsbD (c.val - cx) = true ∧ pixel acc.1 r c = true := by
  induction k with
  | zero =>
    simp only [plotBits]
    refine ⟨Or.inl, ?_⟩
    rintro (h | ⟨r, c, h, -⟩)
    · exact h
    · omega
  | succ k ih =>
    rw [plotBits, collide_plotPixel, ih]
    constructor
    · rintro ((h | ⟨r, c, h, hb, hp⟩) | ⟨r, c, hb, hr, hc, hp⟩)
      · exact .inl h
      · exact .inr ⟨r, c, by omega, hb, hp⟩
      · refine .inr ⟨r, c, by omega, by rw [hc]; simpa using hb, ?_⟩
        rw [pixel_plotBits, decide_eq_false (by omega)] at hp
        simpa using hp
    · rintro (h | ⟨r, c, h, hb, hp⟩)
      · exact .inl (.inl h)
      · by_cases hc : c.val = cx + k
        · refine .inr ⟨r, c, by rw [hc] at hb; simpa using hb, h.1, hc, ?_⟩
          rw [pixel_plotBits, decide_eq_false (by omega)]
          simpa using hp
        · exact .inl (.inr ⟨r, c, by omega, hb, hp⟩)

theorem covers_cons (cx row : Nat) (b : Byte) (bs : List Byte) (r : Fin 32) (c : Fin 64) :
    covers cx row (b :: bs) r c =
      ((decide (r.val = row ∧ cx ≤ c.val ∧ c.val < cx + 8) && b.getMsbD (c.val - cx)) ^^ covers cx (row + 1) bs r c) := by
  unfold covers
  obtain h | h | h := Nat.lt_trichotomy r.val row
  · simp [h.ne, show ¬ row ≤ r.val by omega, show ¬ row + 1 ≤ r.val by omega]
  · subst h
    by_cases hc : c.val < cx + 8
    · simp [hc]
    · have hz : b.getMsbD (c.val - cx) = false := by
        simp only [BitVec.getMsbD, show ¬ c.val - cx < 8 by omega, decide_false, Bool.false_and]
      simp [hc, hz]
  · have h1 : r.val - row = (r.val - (row + 1)) + 1 := by omega
    simp [h.ne', h.le, Nat.succ_le_of_lt h, h1]

/-- Every pixel after the rows are plotted: toggled iff the sprite covers it; clipped pixels are no pixels (R192, R194). -/
theorem pixel_plotRows (cx row : Nat) (bytes : List Byte) (acc : Framebuffer × Bool) (r : Fin 32) (c : Fin 64) :
    pixel (plotRows cx row bytes acc).1 r c = (pixel acc.1 r c ^^ covers cx row bytes r c) := by
  induction bytes generalizing row acc with
  | nil => simp [plotRows, covers]
  | cons b bs ih => rw [plotRows, ih, pixel_plotBits, covers_cons, Bool.xor_assoc]

theorem covers_row {cx row : Nat} {bytes : List Byte} {r : Fin 32} {c : Fin 64} (h : covers cx row bytes r c = true) :
    row ≤ r.val := by
  simp only [covers, Bool.and_eq_true, decide_eq_true_eq] at h
  exact h.1.1

/-- The rows collide iff a covered pixel was on before (R193). -/
theorem collide_plotRows (cx row : Nat) (bytes : List Byte) (acc : Framebuffer × Bool) :
    (plotRows cx row bytes acc).2 = true ↔
      acc.2 = true ∨ ∃ r c, covers cx row bytes r c = true ∧ pixel acc.1 r c = true := by
  induction bytes generalizing row acc with
  | nil => simp [plotRows, covers]
  | cons b bs ih =>
    rw [plotRows, ih, collide_plotBits, or_assoc]
    refine or_congr_right ?_
    constructor
    · rintro (⟨r, c, h, hb, hp⟩ | ⟨r, c, hcov, hp⟩)
      · refine ⟨r, c, ?_, hp⟩
        have hn : covers cx (row + 1) bs r c = false := by
          rw [← Bool.not_eq_true]; intro hcov; have := covers_row hcov; omega
        rw [covers_cons, hn, decide_eq_true h, hb]; rfl
      · have := covers_row hcov
        have hd : decide (r.val = row ∧ cx ≤ c.val ∧ c.val < cx + 8) = false := decide_eq_false (by omega)
        refine ⟨r, c, by rw [covers_cons, hd, hcov]; rfl, ?_⟩
        rw [pixel_plotBits, hd] at hp
        simpa using hp
    · rintro ⟨r, c, hcov, hp⟩
      rw [covers_cons] at hcov
      by_cases h : r.val = row ∧ cx ≤ c.val ∧ c.val < cx + 8
      · have hn : covers cx (row + 1) bs r c = false := by
          rw [← Bool.not_eq_true]; intro hcov; have := covers_row hcov; omega
        rw [decide_eq_true h, hn] at hcov
        exact .inl ⟨r, c, h, by simpa using hcov, hp⟩
      · rw [decide_eq_false h] at hcov
        refine .inr ⟨r, c, by simpa using hcov, ?_⟩
        rw [pixel_plotBits, decide_eq_false h]
        simpa using hp

end Sys2Proof.Machine
end

