-- ==== Sys2Proof/Laws/Cycle.lean ====
section
/-! SUPPORT. What each part of an iteration can do, said once: the loop head, the fetch, the end of an iteration, the key wait,
and the step as a whole. -/

namespace Sys2Proof.Machine

/-- Each query answers the oldest queued answer, or the free value at the draw counter (R263 to R267). -/
theorem drawIsOpen_cases (s : State) :
    (∃ b bs, s.inputs.isOpen = b :: bs ∧ s.drawIsOpen = (b, s.setInputs { s.inputs with isOpen := bs })) ∨
    (s.inputs.isOpen = [] ∧ s.drawIsOpen = (Config.isOpen s.inputs.draws, s.setInputs s.inputs.drawn)) := by
  unfold State.drawIsOpen
  cases s.inputs.isOpen with
  | nil => exact .inr ⟨rfl, rfl⟩
  | cons b bs => exact .inl ⟨b, bs, rfl, rfl⟩

theorem drawKeyHeld_cases (s : State) (k : Key) :
    (∃ b bs, s.inputs.keyHeld = b :: bs ∧ s.drawKeyHeld k = (b, s.setInputs { s.inputs with keyHeld := bs })) ∨
    (s.inputs.keyHeld = [] ∧ s.drawKeyHeld k = (Config.keyHeld s.inputs.draws k, s.setInputs s.inputs.drawn)) := by
  unfold State.drawKeyHeld
  cases s.inputs.keyHeld with
  | nil => exact .inr ⟨rfl, rfl⟩
  | cons b bs => exact .inl ⟨b, bs, rfl, rfl⟩

theorem drawRandByte_cases (s : State) :
    (∃ b bs, s.inputs.randByte = b :: bs ∧ s.drawRandByte = (b, s.setInputs { s.inputs with randByte := bs })) ∨
    (s.inputs.randByte = [] ∧ s.drawRandByte = (Config.randByte s.inputs.draws, s.setInputs s.inputs.drawn)) := by
  unfold State.drawRandByte
  cases s.inputs.randByte with
  | nil => exact .inr ⟨rfl, rfl⟩
  | cons b bs => exact .inl ⟨b, bs, rfl, rfl⟩

/-- A query changes the inputs only. -/
theorem drawIsOpen_eq (s : State) : s.drawIsOpen.2 = s.setInputs s.drawIsOpen.2.inputs := by
  obtain ⟨_, _, _, h⟩ | ⟨_, h⟩ := drawIsOpen_cases s <;> rw [h] <;> rfl

theorem drawKeyHeld_eq (s : State) (k : Key) :
    (s.drawKeyHeld k).2 = s.setInputs (s.drawKeyHeld k).2.inputs := by
  obtain ⟨_, _, _, h⟩ | ⟨_, h⟩ := drawKeyHeld_cases s k <;> rw [h] <;> rfl

theorem drawRandByte_eq (s : State) : s.drawRandByte.2 = s.setInputs s.drawRandByte.2.inputs := by
  obtain ⟨_, _, _, h⟩ | ⟨_, h⟩ := drawRandByte_cases s <;> rw [h] <;> rfl

/-- The three outcomes of the loop head (R111, R112): stop signal, display closed, passed. -/
theorem loopHead_cases (s : State) :
    (s.inputs.stopReq = true ∧ loopHead s = s.stop .stopSignal) ∨
    (s.inputs.stopReq = false ∧ s.displayAttached = true ∧ s.drawIsOpen.1 = false ∧
      loopHead s = s.drawIsOpen.2.stop .displayClosed) ∨
    (s.inputs.stopReq = false ∧ (!s.displayAttached || s.drawIsOpen.1) = true ∧ loopHead s = s.afterLoopHead) := by
  unfold loopHead State.afterLoopHead
  cases s.inputs.stopReq <;> cases s.displayAttached <;> cases h : s.drawIsOpen.1 <;> simp

/-- A passed loop head changes the inputs only. -/
theorem afterLoopHead_eq (s : State) : s.afterLoopHead = s.setInputs s.afterLoopHead.inputs := by
  unfold State.afterLoopHead
  split
  · exact drawIsOpen_eq s
  · rfl

/-- The three outcomes of a fetch (R113, R114). -/
theorem fetch_cases (s : State) :
    (s.progEnd ≤ s.pc.toNat ∧ fetch s = (none, s.stop .endOfProgram)) ∨
    (s.pc.toNat < s.progEnd ∧ 0xFFF < s.pc.toNat + 1 ∧ fetch s = (none, s.raise (.fetchRange s.pc) s.pc none)) ∨
    (s.canFetch = true ∧ fetch s = (some (s.mem.readWord s.pc.toNat), s.setPc (s.pc + 2))) := by
  unfold fetch State.canFetch
  split
  · next h => exact .inl ⟨h, rfl⟩
  · next h =>
    split
    · next h2 => exact .inr (.inl ⟨by omega, h2, rfl⟩)
    · next h2 => refine .inr (.inr ⟨?_, rfl⟩); simp; omega

/-- The end of an iteration ticks the timers exactly when Execute completed (R118, R120). -/
theorem endIteration_cases (s : State) :
    (s.run = .running ∧ s.keyWait = none ∧ endIteration s = s.timerTick) ∨
    ((s.run ≠ .running ∨ s.keyWait ≠ none) ∧ endIteration s = s) := by
  unfold endIteration
  cases s.run <;> cases s.keyWait <;> simp

/-- What the key wait can do (R237 to R240). -/
theorem resolveWait_cases (x : RegIx) (s : State) :
    (s.inputs.stopReq = false ∧ s.inputs.waitKey = [] ∧ resolveWait x s = s) ∨
    (∃ inp, s.inputs.stopReq = true ∧ resolveWait x s = waitStopped (s.setInputs inp)) ∨
    (∃ a rest inp, s.inputs.waitKey = a :: rest ∧ resolveWait x s = waitAnswered x a (s.setInputs inp)) := by
  unfold resolveWait takeWaitAnswer State.drawStopBeforeKey
  cases hs : s.inputs.stopReq <;> cases hw : s.inputs.waitKey with
  | nil =>
    first
    | exact .inl ⟨rfl, rfl, rfl⟩
    | exact .inr (.inl ⟨s.inputs, rfl, rfl⟩)
  | cons a rest =>
    first
    | exact .inr (.inr ⟨a, rest, _, rfl, rfl⟩)
    | (dsimp only; split
       · exact .inr (.inl ⟨_, rfl, rfl⟩)
       · exact .inr (.inr ⟨a, rest, _, rfl, rfl⟩))

/-- Every case of a step (R110, R117): nothing once Stopped, the key wait, a stop at the loop head, a stop at the fetch, a decode
failure, or Execute. -/
theorem step_cases (s : State) :
    (∃ r, s.run = .stopped r ∧ step s = .fault (.stopped r)) ∨
    (∃ x, s.run = .running ∧ s.keyWait = some x ∧ step s = .next (resolveWait x s)) ∨
    (s.run = .running ∧ s.keyWait = none ∧ s.inputs.stopReq = true ∧ step s = .next (s.stop .stopSignal)) ∨
    (s.run = .running ∧ s.keyWait = none ∧ s.inputs.stopReq = false ∧ s.displayAttached = true ∧ s.drawIsOpen.1 = false ∧
      step s = .next (s.drawIsOpen.2.stop .displayClosed)) ∨
    (s.passesLoopHead = true ∧ s.progEnd ≤ s.pc.toNat ∧ step s = .next (s.afterLoopHead.stop .endOfProgram)) ∨
    (s.passesLoopHead = true ∧ s.pc.toNat < s.progEnd ∧ 0xFFF < s.pc.toNat + 1 ∧
      step s = .next (s.afterLoopHead.raise (.fetchRange s.pc) s.pc none)) ∨
    (s.passesLoopHead = true ∧ s.canFetch = true ∧
      step s = decodeExecute (s.mem.readWord s.pc.toNat) (s.afterLoopHead.setPc (s.pc + 2))) := by
  cases hr : s.run with
  | stopped r => exact .inl ⟨r, rfl, by simp only [step, hr]⟩
  | running =>
    cases hk : s.keyWait with
    | some x => exact .inr (.inl ⟨x, rfl, rfl, by simp only [step, hr, hk]⟩)
    | none =>
      have hstep : step s = iteration s := by simp only [step, hr, hk]
      rw [hstep, iteration]
      obtain ⟨h1, h2⟩ | ⟨h1, h2, h3, h4⟩ | ⟨h1, h2, h3⟩ := loopHead_cases s
      · exact .inr (.inr (.inl ⟨rfl, rfl, h1, by rw [h2]; rfl⟩))
      · exact .inr (.inr (.inr (.inl ⟨rfl, rfl, h1, h2, h3, by rw [h4]; rfl⟩)))
      · have hp : s.passesLoopHead = true := by simp [State.passesLoopHead, hr, hk, h1, h2]
        have hrun : s.afterLoopHead.run = .running := by rw [afterLoopHead_eq]; exact hr
        have hpc : s.afterLoopHead.pc = s.pc := by rw [afterLoopHead_eq]; rfl
        have hmem : s.afterLoopHead.mem = s.mem := by rw [afterLoopHead_eq]; rfl
        have hend : s.afterLoopHead.progEnd = s.progEnd := by rw [afterLoopHead_eq]; rfl
        rw [h3, hrun]
        simp only [fetchDecodeExecute]
        obtain ⟨hf, he⟩ | ⟨hf, hg, he⟩ | ⟨hf, he⟩ := fetch_cases s.afterLoopHead
        · rw [hpc, hend] at hf
          rw [he]
          exact .inr (.inr (.inr (.inr (.inl ⟨hp, hf, rfl⟩))))
        · rw [hpc, hend] at hf
          rw [hpc] at hg
          rw [he, hpc]
          exact .inr (.inr (.inr (.inr (.inr (.inl ⟨hp, hf, hg, rfl⟩)))))
        · simp only [State.canFetch, hpc, hend] at hf
          rw [he, hpc, hmem]
          exact .inr (.inr (.inr (.inr (.inr (.inr ⟨hp, hf, rfl⟩)))))

end Sys2Proof.Machine
end

