-- ==== Sys2Proof/Laws/Decode.lean ====
section
/-! SUPPORT. The fields of an encoded word and the word of its fields: each field helper undoes its inverse. -/

namespace Sys2Proof

@[simp] theorem regOf_regField (x : RegIx) : regOf (regField x) = x := by revert x; decide

@[simp] theorem regField_regOf (f : BitVec 4) : regField (regOf f) = f := by revert f; decide

@[simp] theorem highNibble_byteOf (h l : BitVec 4) : highNibble (byteOf h l) = h := by revert h l; decide

@[simp] theorem lowNibble_byteOf (h l : BitVec 4) : lowNibble (byteOf h l) = l := by revert h l; decide

@[simp] theorem byteOf_nibbles (b : Byte) : byteOf (highNibble b) (lowNibble b) = b := by revert b; decide

@[simp] theorem highByte_wordOf (h l : Byte) : highByte (wordOf h l) = h :=
  BitVec.extractLsb'_append_eq_left

@[simp] theorem lowByte_wordOf (h l : Byte) : lowByte (wordOf h l) = l :=
  BitVec.extractLsb'_append_eq_right

/-- `raw = high ++ low`, and `high`, `low` are its bytes (R51, R81). -/
@[simp] theorem wordOf_bytes (w : Word) : wordOf (highByte w) (lowByte w) = w := by
  apply BitVec.eq_of_getLsbD_eq
  intro i hi
  simp only [wordOf, highByte, lowByte, BitVec.getLsbD_append, BitVec.getLsbD_extractLsb']
  split
  · next h => simp [h]
  · next h => simp [show i - 8 < 8 by omega, show 8 + (i - 8) = i by omega]

/-- The high byte of a format FA word: op, then the top nibble of nnn (R83). -/
theorem highByte_encodeFA (op n2 : BitVec 4) (low : Byte) : highByte (encodeFA op (addrOf n2 low)) = byteOf op n2 := by
  apply BitVec.eq_of_getLsbD_eq
  intro i hi
  simp only [highByte, encodeFA, addrOf, byteOf, BitVec.getLsbD_extractLsb', BitVec.getLsbD_append]
  simp only [hi, decide_true, Bool.true_and, show ¬ 8 + i < 8 by omega, if_false]
  simp only [show (8 + i < 12) = (i < 4) by simp; omega, show 8 + i - 12 = i - 4 by omega, show 8 + i - 8 = i by omega]

/-- The low byte of a format FA word (R83). -/
theorem lowByte_encodeFA (op n2 : BitVec 4) (low : Byte) : lowByte (encodeFA op (addrOf n2 low)) = low := by
  apply BitVec.eq_of_getLsbD_eq
  intro i hi
  simp only [lowByte, encodeFA, addrOf, BitVec.getLsbD_extractLsb', BitVec.getLsbD_append]
  simp only [Nat.zero_add, hi, decide_true, Bool.true_and, show i < 4 + 8 by omega, if_true]

/-- Every nnn is its top nibble and its low byte (R82). -/
theorem exists_addrOf (a : Addr12) : ∃ (n2 : BitVec 4) (low : Byte), a = addrOf n2 low := by
  refine ⟨a.extractLsb' 8 4, a.extractLsb' 0 8, ?_⟩
  apply BitVec.eq_of_getLsbD_eq
  intro i hi
  simp only [addrOf, BitVec.getLsbD_append, BitVec.getLsbD_extractLsb']
  split
  · next h => simp [h]
  · next h => simp [show i - 8 < 4 by omega, show 8 + (i - 8) = i by omega]

/-- Every word is its top nibble and its nnn (R81, R82). -/
theorem exists_encodeFA (w : Word) : ∃ (op : BitVec 4) (a : Addr12), w = encodeFA op a := by
  refine ⟨w.extractLsb' 12 4, w.extractLsb' 0 12, ?_⟩
  apply BitVec.eq_of_getLsbD_eq
  intro i hi
  simp only [encodeFA, BitVec.getLsbD_append, BitVec.getLsbD_extractLsb']
  split
  · next h => simp [h]
  · next h => simp [show i - 12 < 4 by omega, show 12 + (i - 12) = i by omega]

/-- Decoding a word by its fields: what the decoder sees of op, nibble 2 and the low byte. -/
theorem decodeWord_encodeFA (op n2 : BitVec 4) (low : Byte) :
    decodeWord (encodeFA op (addrOf n2 low)) = decode (byteOf op n2) low := by
  rw [decodeWord, highByte_encodeFA, lowByte_encodeFA]

/-- A word of format FI or FX decodes by its op, x and low byte. -/
theorem decodeWord_encodeFI (op : BitVec 4) (x : RegIx) (nn : Byte) :
    decodeWord (encodeFI op x nn) = decode (byteOf op (regField x)) nn :=
  decodeWord_encodeFA op (regField x) nn

/-- A word of format FR or FD decodes by its op, x, y and last nibble. -/
theorem decodeWord_encodeFR (op : BitVec 4) (x y : RegIx) (f : BitVec 4) :
    decodeWord (encodeFR op x y f) = decode (byteOf op (regField x)) (byteOf (regField y) f) :=
  decodeWord_encodeFI op x (byteOf (regField y) f)

end Sys2Proof
end

