-- ==== Sys2Proof/Laws/Exec.lean ====
section
/-! SUPPORT. What Execute and the step's decoding can do, said once over all 34 instructions. -/

namespace Sys2Proof.Machine

/-- What every instruction that completes keeps or bounds, whatever else it does. -/
structure Completes (i : Instr) (s t : State) : Prop where
  run : t.run = s.run
  progEnd : t.progEnd = s.progEnd
  displayAttached : t.displayAttached = s.displayAttached
  stopReq : t.inputs.stopReq = s.inputs.stopReq
  isOpen : t.inputs.isOpen = s.inputs.isOpen
  waitKey : t.inputs.waitKey = s.inputs.waitKey
  trace : t.trace = s.trace ∧ t.fb = s.fb ∨ t.trace = s.trace ++ [.render t.fb]
  keyWait : t.keyWait = s.keyWait ∨ ∃ x, i = .ldVxK x ∧ t.keyWait = some x
  memory : s.mem.wf = true → t.mem.wf = true
  code : s.pc.toNat ≤ 0x1000 → (∀ k : Fin 16, s.stack[k].toNat ≤ 0x1000) →
    t.pc.toNat ≤ 0x10FE ∧ ∀ k : Fin 16, t.stack[k].toNat ≤ 0x1000

/-- Execute always answers a next state: the instruction's own bounds fault, or its completion. -/
theorem exec_cases (i : Instr) (s : State) :
    (∃ c, (∀ p, c ≠ .fetchRange p) ∧ (∀ w, c ≠ .decodeError w) ∧ exec i s = .next (s.raiseFrom i c)) ∨
    (∃ t, exec i s = .next t ∧ Completes i s t) := by
  have next2 : s.pc.toNat ≤ 0x1000 → (s.pc + 2).toNat ≤ 0x10FE := by
    intro h
    simp
    omega
  have stay : s.pc.toNat ≤ 0x1000 → s.pc.toNat ≤ 0x10FE := by omega
  cases i
  case ret =>
    obtain ⟨_, e⟩ | ⟨h1, e⟩ := pop_cases s
    · refine .inl ⟨_, ?_, ?_, (by simp only [exec, execRet, e]; rfl)⟩ <;> simp
    · refine .inr ⟨_, by simp only [exec, execRet, e]; rfl, ?_⟩
      constructor <;> simp [State.setPc]
      exact fun _ h2 => ⟨Nat.le_trans (h2 ⟨s.sp.val - 1, by omega⟩) (by omega), h2⟩
  case call nnn =>
    obtain ⟨_, e⟩ | ⟨h1, e⟩ := push_cases s s.pc
    · refine .inl ⟨_, ?_, ?_, (by simp only [exec, execCall, e]; rfl)⟩ <;> simp
    · refine .inr ⟨_, by simp only [exec, execCall, e]; rfl, ?_⟩
      constructor <;> simp [State.setPc, addrOperand, Vector.getElem_set]
      exact fun h h2 => ⟨by omega, fun k => by split; exact h; exact h2 k⟩
  case drw x y n =>
    by_cases h : inRange s.i.toNat n = true
    · refine .inr ⟨_, by simp only [exec, execDrw, h, if_true]; rfl, ?_⟩
      constructor <;> simp [State.emit]
      exact fun h h2 => ⟨stay h, h2⟩
    · refine .inl ⟨_, ?_, ?_, (by simp only [exec, execDrw, h]; rfl)⟩ <;> simp
  case ldB x =>
    by_cases h : inRange s.i.toNat 3 = true
    · refine .inr ⟨_, by simp only [exec, execLdB, h, if_true]; rfl, ?_⟩
      constructor <;> simp
      · refine fun hw => wf_writeBlock hw ?_
        simpa [inRange_iff] using h
      · exact fun h h2 => ⟨stay h, h2⟩
    · refine .inl ⟨_, ?_, ?_, (by simp only [exec, execLdB, h]; rfl)⟩ <;> simp
  case storeRegs x =>
    by_cases h : inRange s.i.toNat (regCount x) = true
    · refine .inr ⟨_, by simp only [exec, execStoreRegs, h, if_true]; rfl, ?_⟩
      constructor <;> simp
      · refine fun hw => wf_writeBlock hw ?_
        simp [inRange_iff, regCount] at h
        simp [regCount]
        omega
      · exact fun h h2 => ⟨stay h, h2⟩
    · refine .inl ⟨_, ?_, ?_, (by simp only [exec, execStoreRegs, h]; rfl)⟩ <;> simp
  case loadRegs x =>
    by_cases h : inRange s.i.toNat (regCount x) = true
    · refine .inr ⟨_, by simp only [exec, execLoadRegs, h, if_true]; rfl, ?_⟩
      constructor <;> simp
      exact fun h h2 => ⟨stay h, h2⟩
    · refine .inl ⟨_, ?_, ?_, (by simp only [exec, execLoadRegs, h]; rfl)⟩ <;> simp
  case skp x =>
    cases h : keyOperand (s.getV x) with
    | none => refine .inl ⟨_, ?_, ?_, (by simp only [exec, execSkp, h]; rfl)⟩ <;> simp
    | some k =>
      refine .inr ⟨_, by simp only [exec, execSkp, h]; rfl, ?_⟩
      obtain ⟨b, bs, h1, h2⟩ | ⟨h1, h2⟩ := drawKeyHeld_cases s k <;> rw [h2] <;> constructor <;>
        simp [State.skipIf, State.setPc, State.setInputs, Inputs.drawn] <;>
        exact fun h h2 => ⟨by split <;> first | exact next2 h | exact stay h, h2⟩
  case sknp x =>
    cases h : keyOperand (s.getV x) with
    | none => refine .inl ⟨_, ?_, ?_, (by simp only [exec, execSknp, h]; rfl)⟩ <;> simp
    | some k =>
      refine .inr ⟨_, by simp only [exec, execSknp, h]; rfl, ?_⟩
      obtain ⟨b, bs, h1, h2⟩ | ⟨h1, h2⟩ := drawKeyHeld_cases s k <;> rw [h2] <;> constructor <;>
        simp [State.skipIf, State.setPc, State.setInputs, Inputs.drawn] <;>
        exact fun h h2 => ⟨by split <;> first | exact next2 h | exact stay h, h2⟩
  case rnd x nn =>
    refine .inr ⟨_, rfl, ?_⟩
    obtain ⟨b, bs, h1, h2⟩ | ⟨h1, h2⟩ := drawRandByte_cases s <;> rw [h2] <;> constructor <;>
      simp [State.setInputs, Inputs.drawn] <;>
      exact fun h h2 => ⟨stay h, h2⟩
  case jpV0 nnn =>
    refine .inr ⟨_, rfl, ?_⟩
    constructor <;> simp [addrOperand, zext16]
    have := nnn.isLt
    have := (s.getV 0).isLt
    exact fun _ h2 => ⟨by omega, h2⟩
  case jp nnn =>
    refine .inr ⟨_, rfl, ?_⟩
    constructor <;> simp [addrOperand]
    exact fun _ h2 => ⟨by omega, h2⟩
  case ldVxK x =>
    refine .inr ⟨_, rfl, ?_⟩
    constructor <;> simp
    exact fun h h2 => ⟨stay h, h2⟩
  all_goals
    refine .inr ⟨_, rfl, ?_⟩
    constructor <;> simp [State.skipIf, State.emit, State.setResult]
    exact fun h h2 => ⟨by first | exact stay h | (split <;> first | exact next2 h | exact stay h), h2⟩

/-- A fetched word is a DecodeError (R251), or its instruction's Execute followed by the end of the iteration (R114 to R118). -/
theorem decodeExecute_cases (w : Word) (s : State) :
    (∃ e, decodeWord w = .error e ∧ decodeExecute w s = .next (s.raise (.decodeError w) s.insnAddr (some w))) ∨
    (∃ i t, decodeWord w = .ok i ∧ exec i s = .next t ∧ decodeExecute w s = .next (endIteration t)) := by
  cases h : decodeWord w with
  | error e => exact .inl ⟨e, rfl, by simp only [decodeExecute, h]⟩
  | ok i =>
    obtain ⟨c, _, _, e⟩ | ⟨t, e, _⟩ := exec_cases i s
    · exact .inr ⟨i, _, rfl, e, by simp only [decodeExecute, h, e, finish]⟩
    · exact .inr ⟨i, _, rfl, e, by simp only [decodeExecute, h, e, finish]⟩

/-- What a passed loop head says of the state (R110 to R112). -/
theorem passesLoopHead_iff (s : State) :
    s.passesLoopHead = true ↔ s.run = .running ∧ s.keyWait = none ∧ s.inputs.stopReq = false ∧
      (!s.displayAttached || s.drawIsOpen.1) = true := by
  simp [State.passesLoopHead, and_assoc]

/-- A tick writes DT, ST and the trace only (R122). -/
theorem timerTick_frame (s : State) :
    s.timerTick = { s with dt := s.timerTick.dt, st := s.timerTick.st, trace := s.timerTick.trace } := by
  apply State.ext <;> simp

end Sys2Proof.Machine
end

