-- ==== Sys2Proof/Laws/PerInstr.lean ====
section
/-! SUPPORT. Facts about every instruction as syntax, one lemma per constructor. -/

namespace Sys2Proof.Laws.EncodeInRow

/-- The word of an instruction lies in the instruction's own row of the opcode table (R86). -/
def Statement (i : Instr) : Prop := encode i &&& i.row.mask = i.row.value

theorem and_ones4 (b : BitVec 4) : b &&& 0xF#4 = b := by revert b; decide

theorem and_ones8 (b : BitVec 8) : b &&& 0xFF#8 = b := BitVec.and_allOnes

theorem fa (op : BitVec 4) (nnn : Addr12) : encodeFA op nnn &&& 0xF000#16 = op ++ 0#12 := by
  rw [encodeFA, show 0xF000#16 = 0xF#4 ++ 0#12 from rfl, BitVec.and_append]
  simp [and_ones4]

theorem fi (op : BitVec 4) (x : RegIx) (nn : Byte) : encodeFI op x nn &&& 0xF000#16 = op ++ 0#12 :=
  fa op (addrOf (regField x) nn)

theorem fx (op : BitVec 4) (x : RegIx) (nn : Byte) : encodeFI op x nn &&& 0xF0FF#16 = op ++ (0#4 ++ nn) := by
  rw [encodeFI, encodeFA, addrOf, show 0xF0FF#16 = 0xF#4 ++ (0x0#4 ++ 0xFF#8) from rfl, BitVec.and_append,
    BitVec.and_append]
  simp [and_ones4, and_ones8]

theorem fr (op : BitVec 4) (x y : RegIx) (f : BitVec 4) :
    encodeFR op x y f &&& 0xF00F#16 = op ++ (0#4 ++ (0#4 ++ f)) := by
  rw [encodeFR, encodeFI, encodeFA, addrOf, byteOf, show 0xF00F#16 = 0xF#4 ++ (0x0#4 ++ (0x0#4 ++ 0xF#4)) from rfl,
    BitVec.and_append, BitVec.and_append, BitVec.and_append]
  simp [and_ones4]

theorem fd (op : BitVec 4) (x y : RegIx) (n : BitVec 4) : encodeFR op x y n &&& 0xF000#16 = op ++ 0#12 :=
  fi op x (byteOf (regField y) n)

theorem cls : Statement .cls := rfl
theorem ret : Statement .ret := rfl
theorem jp (nnn : Addr12) : Statement (.jp nnn) := fa 0x1#4 nnn
theorem call (nnn : Addr12) : Statement (.call nnn) := fa 0x2#4 nnn
theorem seImm (x : RegIx) (nn : Byte) : Statement (.seImm x nn) := fi 0x3#4 x nn
theorem sneImm (x : RegIx) (nn : Byte) : Statement (.sneImm x nn) := fi 0x4#4 x nn
theorem seReg (x y : RegIx) : Statement (.seReg x y) := fr 0x5#4 x y 0x0#4
theorem sneReg (x y : RegIx) : Statement (.sneReg x y) := fr 0x9#4 x y 0x0#4
theorem ldImm (x : RegIx) (nn : Byte) : Statement (.ldImm x nn) := fi 0x6#4 x nn
theorem addImm (x : RegIx) (nn : Byte) : Statement (.addImm x nn) := fi 0x7#4 x nn
theorem ldReg (x y : RegIx) : Statement (.ldReg x y) := fr 0x8#4 x y 0x0#4
theorem orReg (x y : RegIx) : Statement (.orReg x y) := fr 0x8#4 x y 0x1#4
theorem andReg (x y : RegIx) : Statement (.andReg x y) := fr 0x8#4 x y 0x2#4
theorem xorReg (x y : RegIx) : Statement (.xorReg x y) := fr 0x8#4 x y 0x3#4
theorem addReg (x y : RegIx) : Statement (.addReg x y) := fr 0x8#4 x y 0x4#4
theorem sub (x y : RegIx) : Statement (.sub x y) := fr 0x8#4 x y 0x5#4
theorem shr (x y : RegIx) : Statement (.shr x y) := fr 0x8#4 x y 0x6#4
theorem subn (x y : RegIx) : Statement (.subn x y) := fr 0x8#4 x y 0x7#4
theorem shl (x y : RegIx) : Statement (.shl x y) := fr 0x8#4 x y 0xE#4
theorem ldI (nnn : Addr12) : Statement (.ldI nnn) := fa 0xA#4 nnn
theorem jpV0 (nnn : Addr12) : Statement (.jpV0 nnn) := fa 0xB#4 nnn
theorem rnd (x : RegIx) (nn : Byte) : Statement (.rnd x nn) := fi 0xC#4 x nn
theorem drw (x y : RegIx) (n : Nat) : Statement (.drw x y n) := fd 0xD#4 x y (BitVec.ofNat 4 n)
theorem skp (x : RegIx) : Statement (.skp x) := fx 0xE#4 x 0x9E#8
theorem sknp (x : RegIx) : Statement (.sknp x) := fx 0xE#4 x 0xA1#8
theorem ldVxDt (x : RegIx) : Statement (.ldVxDt x) := fx 0xF#4 x 0x07#8
theorem ldVxK (x : RegIx) : Statement (.ldVxK x) := fx 0xF#4 x 0x0A#8
theorem ldDtVx (x : RegIx) : Statement (.ldDtVx x) := fx 0xF#4 x 0x15#8
theorem ldStVx (x : RegIx) : Statement (.ldStVx x) := fx 0xF#4 x 0x18#8
theorem addI (x : RegIx) : Statement (.addI x) := fx 0xF#4 x 0x1E#8
theorem ldF (x : RegIx) : Statement (.ldF x) := fx 0xF#4 x 0x29#8
theorem ldB (x : RegIx) : Statement (.ldB x) := fx 0xF#4 x 0x33#8
theorem storeRegs (x : RegIx) : Statement (.storeRegs x) := fx 0xF#4 x 0x55#8
theorem loadRegs (x : RegIx) : Statement (.loadRegs x) := fx 0xF#4 x 0x65#8

end Sys2Proof.Laws.EncodeInRow
end

