-- ==== Sys2Proof/Tests/Slice0.lean ====
section
/-! SUPPORT. The model's own tests. Expected values come from the spec: the vectors of 95_test_vectors.md, named in each comment,
or the rule a comment cites. The witnesses show that the hypotheses of each statement can be met together. -/

namespace Sys2Proof.Tests

open Sys2Proof.Machine

/-! States to test from. -/

/-- Reset with registers set. -/
def regs (l : List (RegIx × Byte)) : State := l.foldl (fun s p => s.setV p.1 p.2) State.reset

/-- Bytes stored from address `a` up. -/
def poke (a : Nat) (bytes : List Byte) (s : State) : State := s.setMem (s.mem.writeBlock a bytes)

/-- The state after one step from `s` with the word `w` placed at PC. -/
def ran (w : Nat) (s : State) : State := (nextState (step (s.withFetchWord 16 w))).getD s

/-- The state after one step. -/
def stepped (s : State) : State := (nextState (step s)).getD s

/-- Inputs with a stop request. -/
def stopping : Inputs := { Inputs.quiet with stopReq := true }

/-- V0 to VF hold 0 to F. -/
def counted : State := State.reset.setVs (Vector.ofFn fun k : Fin 16 => BitVec.ofNat 8 k.val)

/-- A framebuffer with one pixel on. -/
def oneOn (r : Fin 32) (c : Fin 64) : Framebuffer := togglePixel clearFb r c

/-- The run state a fault leaves. -/
def faulted (cause : FaultCause) (addr : Word) (raw : Option Word) : RunState :=
  .stopped (.fault { cause := cause, addr := addr, raw := raw })

/-- Suspended for V3 with DT = 5, ST = 2: the state of vector TK-11 after its step. -/
def suspended (inp : Inputs) : State :=
  ((((State.reset.setDt 5).setSt 2).setPc 0x202).setKeyWait (some 3)).setInputs inp

/-! Well-formedness: an ill-formed term for each check. -/

/-- R91: n is 4 bits. -/
theorem test_wf_refuses_row_count_16 : Instr.wf (.drw 0 1 16) = false := by decide

theorem test_wf_accepts_row_count_15 : Instr.wf (.drw 0 1 15) = true := by decide

/-- FX-1. -/
theorem test_rom_of_3585_bytes_refused :
    romFits (List.replicate 3585 0) = false := by rw [romFits, List.length_replicate]; rfl

/-- FX-2. -/
theorem test_rom_of_3584_bytes_fits : romFits (List.replicate 3584 0) = true := by rw [romFits, List.length_replicate]; rfl

/-- An unlisted address reads as 0 past the font. -/
theorem test_memory_wf_refuses_cell_equal_to_unlisted : Memory.wf [(0x300, 0)] = false := by decide

theorem test_memory_wf_refuses_falling_addresses : Memory.wf [(0x301, 1), (0x300, 1)] = false := by decide

theorem test_memory_wf_refuses_address_past_memory : Memory.wf [(0x1000, 1)] = false := by decide

/-! Decoding: words written out bit by bit from R83 and R86, one for each constructor. -/

/-- FA words: op, then the 12 bits of nnn. -/
theorem test_decode_control :
    decodeWord 0b0000000011100000#16 = .ok .cls ∧
    decodeWord 0b0000000011101110#16 = .ok .ret ∧
    decodeWord 0b0001_0010_0000_1000#16 = .ok (.jp 0x208#12) ∧
    decodeWord 0b0010_1010_1011_1100#16 = .ok (.call 0xABC#12) ∧
    decodeWord 0b1011_0011_0000_0000#16 = .ok (.jpV0 0x300#12) := by decide

/-- FI words: op, x, nn. -/
theorem test_decode_immediate :
    decodeWord 0b0011_0011_0001_0000#16 = .ok (.seImm 3 0x10#8) ∧
    decodeWord 0b0100_0011_0001_0000#16 = .ok (.sneImm 3 0x10#8) ∧
    decodeWord 0b0110_1010_0101_1100#16 = .ok (.ldImm 10 0x5C#8) ∧
    decodeWord 0b0111_1111_1111_1111#16 = .ok (.addImm 15 0xFF#8) ∧
    decodeWord 0b1100_0011_0000_1111#16 = .ok (.rnd 3 0x0F#8) := by decide

/-- FR words: op, x, y, function. -/
theorem test_decode_register_pairs :
    decodeWord 0b0101_0001_0010_0000#16 = .ok (.seReg 1 2) ∧
    decodeWord 0b1001_0001_0010_0000#16 = .ok (.sneReg 1 2) ∧
    decodeWord 0b1000_0001_0010_0000#16 = .ok (.ldReg 1 2) ∧
    decodeWord 0b1000_0001_0010_0001#16 = .ok (.orReg 1 2) ∧
    decodeWord 0b1000_0001_0010_0010#16 = .ok (.andReg 1 2) ∧
    decodeWord 0b1000_0001_0010_0011#16 = .ok (.xorReg 1 2) ∧
    decodeWord 0b1000_0001_0010_0100#16 = .ok (.addReg 1 2) ∧
    decodeWord 0b1000_0001_0010_0101#16 = .ok (.sub 1 2) ∧
    decodeWord 0b1000_0001_0010_0110#16 = .ok (.shr 1 2) ∧
    decodeWord 0b1000_0001_0010_0111#16 = .ok (.subn 1 2) ∧
    decodeWord 0b1000_0001_0010_1110#16 = .ok (.shl 1 2) := by decide

/-- The FD word of Dxyn, and Annn. -/
theorem test_decode_display_and_index :
    decodeWord 0b1101_0110_0111_1111#16 = .ok (.drw 6 7 15) ∧
    decodeWord 0b1010_0010_0010_1010#16 = .ok (.ldI 0x22A#12) := by decide

/-- FX words: op, x, low byte. -/
theorem test_decode_x_only :
    decodeWord 0b1110_1100_1001_1110#16 = .ok (.skp 12) ∧
    decodeWord 0b1110_0001_1010_0001#16 = .ok (.sknp 1) ∧
    decodeWord 0b1111_0011_0000_0111#16 = .ok (.ldVxDt 3) ∧
    decodeWord 0b1111_0011_0000_1010#16 = .ok (.ldVxK 3) ∧
    decodeWord 0b1111_0100_0001_0101#16 = .ok (.ldDtVx 4) ∧
    decodeWord 0b1111_0101_0001_1000#16 = .ok (.ldStVx 5) ∧
    decodeWord 0b1111_0010_0001_1110#16 = .ok (.addI 2) ∧
    decodeWord 0b1111_1010_0010_1001#16 = .ok (.ldF 10) ∧
    decodeWord 0b1111_0110_0011_0011#16 = .ok (.ldB 6) ∧
    decodeWord 0b1111_1111_0101_0101#16 = .ok (.storeRegs 15) ∧
    decodeWord 0b1111_1111_0110_0101#16 = .ok (.loadRegs 15) := by decide

/-- DE-3 to DE-6, DE-8 to DE-10, DE-12, DE-14. -/
theorem test_decode_illegal_words :
    decodeWord 0x0000#16 = .error .family0 ∧
    decodeWord 0x0123#16 = .error .family0 ∧
    decodeWord 0x00E1#16 = .error .family0 ∧
    decodeWord 0x5121#16 = .error .family5 ∧
    decodeWord 0x912F#16 = .error .family9 ∧
    decodeWord 0x8128#16 = .error .family8 ∧
    decodeWord 0x812F#16 = .error .family8 ∧
    decodeWord 0xE19F#16 = .error .familyE ∧
    decodeWord 0xF108#16 = .error .familyF := by decide

theorem test_table_word_of_a_row :
    decodeTableWord 16 0xD015 = some (.drw 0 1 5) ∧ decodeTableWord 16 0x0000 = none := by decide

/-! Control flow. -/

/-- FL-1. -/
theorem test_jp : (ran 0x1208 State.reset).pc = 0x208 := by decide

/-- FL-3. -/
theorem test_call :
    let s := ran 0x2ABC (State.reset.setPc 0x204)
    s.pc = 0xABC ∧ s.sp = 1 ∧ s.stack[0] = 0x206 := by decide

/-- FL-5. -/
theorem test_call_full_stack :
    (ran 0x2300 { State.reset with pc := 0x210, sp := 16 }).run = faulted (.stackOverflow 16) 0x210 (some 0x2300) := by decide

/-- FL-6. -/
theorem test_ret :
    let s := ran 0x00EE { State.reset with pc := 0x300, sp := 1, stack := State.reset.stack.set 0 0x206 }
    s.pc = 0x206 ∧ s.sp = 0 ∧ s.stack[0] = 0x206 := by decide

/-- FL-7. -/
theorem test_ret_empty_stack :
    let s := ran 0x00EE State.reset
    s.run = faulted (.stackUnderflow 0) 0x200 (some 0x00EE) ∧ s.pc = 0x202 := by decide

/-- FL-8. -/
theorem test_se_imm_taken : (ran 0x3310 (regs [(3, 0x10)])).pc = 0x204 := by decide

/-- FL-9. -/
theorem test_se_imm_not_taken : (ran 0x3310 (regs [(3, 0x11)])).pc = 0x202 := by decide

/-- FL-10. -/
theorem test_sne_imm_not_taken : (ran 0x4310 (regs [(3, 0x10)])).pc = 0x202 := by decide

/-- FL-11. -/
theorem test_sne_imm_taken : (ran 0x4310 (regs [(3, 0x11)])).pc = 0x204 := by decide

/-- FL-12. -/
theorem test_se_reg_taken : (ran 0x5120 (regs [(1, 7), (2, 7)])).pc = 0x204 := by decide

/-- R146. -/
theorem test_se_reg_not_taken : (ran 0x5120 (regs [(1, 7), (2, 8)])).pc = 0x202 := by decide

/-- FL-14. -/
theorem test_sne_reg_taken : (ran 0x9120 (regs [(1, 7), (2, 8)])).pc = 0x204 := by decide

/-- FL-15. -/
theorem test_sne_reg_same : (ran 0x9440 (regs [(4, 9)])).pc = 0x202 := by decide

/-- FL-17. -/
theorem test_jp_v0_no_wrap : (ran 0xbfff (regs [(0, 0xFF)])).pc = 0x10FE := by decide

/-- FL-18. -/
theorem test_jp_v0_not_vx : (ran 0xb300 (regs [(3, 4)])).pc = 0x300 := by decide

/-! Loads and the ALU. -/

/-- ALU-1. -/
theorem test_ld_imm : let s := ran 0x6A5C (regs [])
    s.getV 10 = 0x5C := by decide

/-- ALU-2. -/
theorem test_add_imm_no_carry : let s := ran 0x7003 (regs [(0, 0xFE), (15, 7)])
    s.getV 0 = 1 ∧ s.getV 15 = 7 := by decide

/-- ALU-3. -/
theorem test_add_imm_vf : let s := ran 0x7FFF (regs [(15, 1)])
    s.getV 15 = 0 := by decide

/-- ALU-4. -/
theorem test_ld_reg : let s := ran 0x8010 (regs [(1, 0x3C)])
    s.getV 0 = 0x3C ∧ s.getV 1 = 0x3C := by decide

/-- ALU-5. -/
theorem test_or_keeps_vf :
    let s := ran 0x8011 (regs [(0, 0xF0), (1, 0x0F), (15, 5)])
    s.getV 0 = 0xFF ∧ s.getV 15 = 5 := by decide

/-- ALU-6. -/
theorem test_and : let s := ran 0x8012 (regs [(0, 0xF0), (1, 0x3C)])
    s.getV 0 = 0x30 := by decide

/-- ALU-7. -/
theorem test_xor : let s := ran 0x8013 (regs [(0, 0xF0), (1, 0x3C)])
    s.getV 0 = 0xCC := by decide

/-- ALU-14. -/
theorem test_add_carry : let s := ran 0x8014 (regs [(0, 0xFF), (1, 1)])
    s.getV 0 = 0 ∧ s.getV 15 = 1 := by decide

/-- ALU-17. -/
theorem test_add_flag_wins : let s := ran 0x8F14 (regs [(15, 0x80), (1, 0x90)])
    s.getV 15 = 1 := by decide

/-- ALU-8. -/
theorem test_sub_equal : let s := ran 0x8015 (regs [(0, 5), (1, 5)])
    s.getV 0 = 0 ∧ s.getV 15 = 1 := by decide

/-- ALU-10. -/
theorem test_sub_borrow : let s := ran 0x8015 (regs [(0, 5), (1, 7)])
    s.getV 0 = 0xFE ∧ s.getV 15 = 0 := by decide

/-- ALU-19. -/
theorem test_shr_ignores_y : let s := ran 0x8236 (regs [(2, 5), (3, 0xFF)])
    s.getV 2 = 2 ∧ s.getV 15 = 1 := by decide

/-- ALU-21. -/
theorem test_shr_vf : let s := ran 0x8F06 (regs [(15, 3)])
    s.getV 15 = 1 := by decide

/-- ALU-12. -/
theorem test_subn_no_borrow : let s := ran 0x8017 (regs [(0, 5), (1, 7)])
    s.getV 0 = 2 ∧ s.getV 15 = 1 := by decide

/-- ALU-13. -/
theorem test_subn_borrow : let s := ran 0x8017 (regs [(0, 7), (1, 5)])
    s.getV 0 = 0xFE ∧ s.getV 15 = 0 := by decide

/-- ALU-22. -/
theorem test_shl : let s := ran 0x820E (regs [(2, 0x81)])
    s.getV 2 = 2 ∧ s.getV 15 = 1 := by decide

/-- ALU-24. -/
theorem test_shl_vf : let s := ran 0x8FFE (regs [(15, 0x40)])
    s.getV 15 = 0 := by decide

/-- ALU-26. -/
theorem test_rnd_scripted :
    let s := ran 0xC30F (State.reset.setInputs { Inputs.quiet with randByte := [0xA5, 1] })
    s.getV 3 = 5 ∧ s.inputs.randByte = [1] := by decide

/-- ALU-27. -/
theorem test_rnd_zero_mask :
    (ran 0xC300 (State.reset.setInputs { Inputs.quiet with randByte := [0xFF] })).getV 3 = 0 := by decide

/-! Display. -/

/-- DR-11. -/
theorem test_cls :
    let s := ran 0x00E0 (State.reset.setFb (oneOn 3 4))
    s.fb = clearFb ∧ s.trace = [.render clearFb] := by decide

/-- DR-1. -/
theorem test_drw_wraps_anchor :
    let s := ran 0xD011 ((poke 0x300 [0x80] (regs [(0, 0x45), (1, 0x22)])).setI 0x300)
    s.fb = oneOn 2 5 ∧ s.getV 15 = 0 ∧ s.trace = [.render (oneOn 2 5)] := by decide

/-- DR-9, with the pixel on at the start as in DR-2. -/
theorem test_drw_collides_and_reads_old_vf :
    let s := ran 0xDF11 (((poke 0x300 [0x80] (regs [(15, 0x0A)])).setI 0x300).setFb (oneOn 0 10))
    s.fb = clearFb ∧ s.getV 15 = 1 := by decide

/-- DR-3. -/
theorem test_draw_clips_right_edge :
    let s := ran 0xD011 ((poke 0x300 [0xFF] (regs [(0, 0x3C)])).setI 0x300)
    s.fb[0] = 0xF#64 ∧ s.fb[1] = 0#64 ∧ s.getV 15 = 0 := by decide

/-- DR-8. -/
theorem test_draw_past_memory :
    let s := ran 0xD002 (State.reset.setI 0xFFF)
    s.run = faulted (.memRange 0xFFF 2) 0x200 (some 0xD002) ∧ s.fb = clearFb ∧ s.trace = [] ∧ s.pc = 0x202 := by decide

/-- DR-6. -/
theorem test_draw_nothing_at_the_top :
    let s := ran 0xD000 (State.reset.setI 0xFFF)
    s.run = .running ∧ s.trace = [.render clearFb] ∧ s.getV 15 = 0 := by decide

/-! Index register and memory. -/

/-- IM-1. -/
theorem test_ld_i : (ran 0xAFFF State.reset).i = 0xFFF := by decide

/-- IM-2. -/
theorem test_add_i : (ran 0xF21E ((regs [(2, 0x10)]).setI 0x300)).i = 0x310 := by decide

/-- IM-4, VF unchanged (R211). -/
theorem test_add_i_wraps :
    let s := ran 0xF01E ((regs [(0, 1), (15, 9)]).setI 0xFFFF)
    s.i = 0 ∧ s.getV 15 = 9 := by decide

/-- IM-5. -/
theorem test_ld_f : (ran 0xF029 (regs [(0, 0x0A)])).i = 0x032 := by decide

/-- IM-8. -/
theorem test_ld_f_not_masked : (ran 0xF029 (regs [(0, 0xFF)])).i = 0x4FB := by decide

/-- IM-12. -/
theorem test_bcd :
    let s := ran 0xF033 ((regs [(0, 0x7B)]).setI 0xFFD)
    s.mem.readBlock 0xFFD 3 = [1, 2, 3] ∧ s.i = 0xFFD := by decide

/-- IM-13. -/
theorem test_bcd_past_memory :
    let s := ran 0xF033 ((regs [(0, 0x7B)]).setI 0xFFE)
    s.run = faulted (.memRange 0xFFE 3) 0x200 (some 0xF033) ∧ s.mem.read 0xFFE = 0 ∧ s.mem.read 0xFFF = 0 := by decide

/-- IM-16. -/
theorem test_store_regs_to_the_top :
    let s := ran 0xFF55 (counted.setI 0xFF0)
    s.mem.readBlock 0xFF0 16 = [0, 1, 2, 3, 4, 5, 6, 7] ++ [8, 9, 10, 11, 12, 13, 14, 15] ∧ s.i = 0xFF0 := by decide

/-- IM-15. -/
theorem test_store_regs_past_memory :
    let s := ran 0xFF55 (counted.setI 0xFF1)
    s.run = faulted (.memRange 0xFF1 16) 0x200 (some 0xFF55) ∧ s.mem.read 0xFF2 = 0 := by decide

/-- IM-17. -/
theorem test_load_regs_all :
    let s := ran 0xFF65 ((poke 0x300 ([0x10, 0x11, 0x12, 0x13, 0x14, 0x15, 0x16, 0x17] ++
      [0x18, 0x19, 0x1A, 0x1B, 0x1C, 0x1D, 0x1E, 0x1F]) State.reset).setI 0x300)
    s.getV 0 = 0x10 ∧ s.getV 7 = 0x17 ∧ s.getV 15 = 0x1F ∧ s.i = 0x300 := by decide

/-- IM-18. -/
theorem test_load_regs_stops_at_x :
    let s := ran 0xF065 ((poke 0x300 [0xAB] (regs [(1, 0x77)])).setI 0x300)
    s.getV 0 = 0xAB ∧ s.getV 1 = 0x77 := by decide

/-! Timers and keys. -/

/-- TK-1. -/
theorem test_ld_vx_dt_before_tick :
    let s := ran 0xF307 (State.reset.setDt 0x3C)
    s.getV 3 = 0x3C ∧ s.dt = 0x3B := by decide

/-- TK-2. -/
theorem test_ld_dt_vx : (ran 0xF015 (regs [(0, 3)])).dt = 2 := by decide

/-- TK-3. -/
theorem test_ld_dt_vx_zero : (ran 0xF015 ((regs [(0, 0)]).setDt 5)).dt = 0 := by decide

/-- TK-4. -/
theorem test_ld_st_vx : let s := ran 0xF018 (regs [(0, 1)])
    s.st = 0 ∧ s.trace = [.tone] := by decide

/-- R232: ST is 0 before the tick, so no Tone. -/
theorem test_ld_st_vx_zero : let s := ran 0xF018 ((regs [(0, 0)]).setSt 2)
    s.st = 0 ∧ s.trace = [] := by decide

/-- TK-6. -/
theorem test_skp_held :
    (ran 0xE19E (((regs [(1, 5)]).setPc 0x210).setInputs { Inputs.quiet with keyHeld := [true] })).pc = 0x214 := by decide

/-- TK-8. -/
theorem test_sknp_not_held :
    (ran 0xE1A1 (((regs [(1, 5)]).setPc 0x210).setInputs { Inputs.quiet with keyHeld := [false] })).pc = 0x214 := by decide

/-- TK-9. -/
theorem test_sknp_held :
    (ran 0xE1A1 (((regs [(1, 5)]).setPc 0x210).setInputs { Inputs.quiet with keyHeld := [true] })).pc = 0x212 := by decide

/-- TK-10. -/
theorem test_skp_key_out_of_range :
    let s := ran 0xE19E (((regs [(1, 0x10)]).setPc 0x210).setInputs { Inputs.quiet with keyHeld := [true] })
    s.run = faulted (.keyRange 0x10) 0x210 (some 0xE19E) ∧ s.pc = 0x212 ∧ s.inputs.keyHeld = [true] := by decide

/-- TK-11. -/
theorem test_ld_vx_k_suspends :
    ran 0xF30A ((State.reset.setDt 5).setSt 2) =
    { ((State.reset.withFetchWord 16 0xF30A).setDt 5).setSt 2 with pc := 0x202, keyWait := some 3 } := by decide

/-- TK-12. -/
theorem test_key_arrives :
    let s := stepped (suspended { Inputs.quiet with waitKey := [.key 11] })
    s.getV 3 = 0x0B ∧ s.keyWait = none ∧ s.dt = 4 ∧ s.st = 1 ∧ s.trace = [.tone] ∧ s.pc = 0x202 := by decide

/-- TK-13. -/
theorem test_key_wait_cancelled :
    let s := stepped (suspended { Inputs.quiet with waitKey := [.noKey] })
    s.run = .stopped .keyWaitCancelled ∧ s.getV 3 = 0 ∧ s.dt = 5 ∧ s.st = 2 := by decide

/-- TK-14. -/
theorem test_stop_during_key_wait :
    let s := stepped (suspended stopping)
    s.run = .stopped .stopSignal ∧ s.getV 3 = 0 ∧ s.dt = 5 ∧ s.st = 2 := by decide

/-! The cycle, construction and reset. -/

/-- CY-1. -/
theorem test_empty_program_stops : stepped State.reset = { State.reset with run := .stopped .endOfProgram } := by decide

/-- CY-4. -/
theorem test_fetch_past_memory :
    let s := stepped { State.reset with pc := 0xFFF, progEnd := 0x1000 }
    s.run = faulted (.fetchRange 0xFFF) 0xFFF none ∧ s.pc = 0xFFF := by decide

/-- CY-5. -/
theorem test_pc_past_memory :
    (stepped { State.reset with pc := 0x1000, progEnd := 0x1000 }).run = .stopped .endOfProgram := by decide

/-- CY-8. -/
theorem test_stop_before_display :
    let s := stepped { State.reset with displayAttached := true, inputs := { stopping with isOpen := [false] } }
    s.run = .stopped .stopSignal ∧ s.inputs.isOpen = [false] := by decide

/-- CY-7. -/
theorem test_display_closed :
    (stepped { State.reset with displayAttached := true, inputs := { Inputs.quiet with isOpen := [false] } }).run =
    .stopped .displayClosed := by decide

/-- CY-9. -/
theorem test_tick :
    let s := ran 0x6000 ((State.reset.setDt 2).setSt 1)
    s.dt = 1 ∧ s.st = 0 ∧ s.trace = [.tone] := by decide

/-- CY-10. -/
theorem test_decode_error_no_tick :
    let s := ran 0x0000 (State.reset.setDt 2)
    s.run = faulted (.decodeError 0) 0x200 (some 0) ∧ s.pc = 0x202 ∧ s.dt = 2 := by decide

/-- CY-11. -/
theorem test_odd_address :
    (stepped (poke 0x203 [0x60, 0x01] { State.reset with pc := 0x203, progEnd := 0x205 })).getV 0 = 1 := by decide

/-- R261. -/
theorem test_stopped_has_no_step :
    step { State.reset with run := .stopped .endOfProgram } = .fault (.stopped .endOfProgram) := rfl

/-- FX-3 with the ROM of CY-2 and a font of 07 bytes. -/
theorem test_construct_reads_rom_and_font :
    ((State.construct (some [0x60, 0x05]) (Vector.replicate 80 7) true).toOption.map fun s =>
      (s.mem.readBlock 0x1FF 4, s.mem.read 0x4F, s.mem.read 0x50, s.progEnd, s.displayAttached)) =
    some ([0, 0x60, 0x05, 0], 7, 0, 0x202, true) := by decide

/-- P7: glyph A of the default font (log 1). -/
theorem test_glyph_A : State.reset.mem.readBlock 0x32 5 = [0xF0, 0x90, 0xF0, 0x90, 0x90] := by decide

/-! Witnesses: for each statement with hypotheses, states and operands that meet them all. -/

theorem witness_DecodeInvertsEncode : Instr.wf (.drw 15 15 15) = true ∧ Instr.wf (.loadRegs 15) = true := by decide

theorem witness_EncodeInvertsDecode : decodeWord 0xD00F#16 = .ok (.drw 0 0 15) := by decide

theorem witness_DecodeFollowsOpcodeTable :
    ∃ r ∈ opcodeTable, 0x812E#16 &&& r.mask = r.value := ⟨Instr.row (.shl 0 0), by decide, by decide⟩

theorem witness_IllegalWordsAreTheSixSets :
    decodeWord 0x0FFF#16 = .error .family0 ∧ decodeWord 0x500F#16 = .error .family5 ∧ decodeWord 0x9001#16 = .error .family9 ∧
    decodeWord 0x8008#16 = .error .family8 ∧ decodeWord 0xE000#16 = .error .familyE ∧ decodeWord 0xFFFF#16 = .error .familyF := by decide

/-- About to run the word `w` with the loop head passing. -/
def ready (w : Nat) (s : State) : State := s.withFetchWord 16 w

theorem witness_StepRunsDecodedInstruction_completes :
    let s := ready 0x6A5C State.reset
    s.passesLoopHead = true ∧ s.canFetch = true ∧ decode (s.mem.read s.pc.toNat) (s.mem.read (s.pc.toNat + 1)) = .ok (.ldImm 10 0x5C) ∧
    (nextState (exec (.ldImm 10 0x5C) (s.setPc 0x202))).map (fun t => (t.run, t.keyWait)) = some (.running, none) := by decide

theorem witness_StepRunsDecodedInstruction_faults :
    let s := ready 0x00EE State.reset
    s.passesLoopHead = true ∧ s.canFetch = true ∧ decode (s.mem.read s.pc.toNat) (s.mem.read (s.pc.toNat + 1)) = .ok .ret ∧
    (nextState (exec .ret (s.setPc 0x202))).map (fun t => decide (t.run = .running)) = some false := by decide

theorem witness_StopLatchStopsBeforeFetch :
    let s := State.reset.setInputs stopping
    s.run = .running ∧ s.keyWait = none ∧ s.inputs.stopReq = true := by decide

theorem witness_ClosedDisplayStopsAttachedMachine_queued :
    let s := { State.reset with displayAttached := true, inputs := { Inputs.quiet with isOpen := [false] } }
    s.run = .running ∧ s.keyWait = none ∧ s.inputs.stopReq = false ∧ s.displayAttached = true ∧ s.inputs.isOpen = [false] := by decide

theorem witness_ClosedDisplayStopsAttachedMachine_unscripted :
    let s := { State.reset with displayAttached := true }
    s.run = .running ∧ s.keyWait = none ∧ s.inputs.stopReq = false ∧ s.displayAttached = true ∧ s.inputs.isOpen = [] := by decide

theorem witness_ClosedDisplayStopsAttachedMachine_no_display :
    State.reset.displayAttached = false ∧ (nextState (step State.reset)).isSome = true := by decide

theorem witness_EndOfProgramStops :
    State.reset.passesLoopHead = true ∧ State.reset.progEnd ≤ State.reset.pc.toNat := by decide

theorem witness_FetchPastMemoryFaults :
    let s := { State.reset with pc := 0xFFF, progEnd := 0x1000 }
    s.passesLoopHead = true ∧ s.pc = 0xFFF ∧ s.progEnd = 0x1000 := by decide

theorem witness_DecodeFailureFaults :
    let s := ready 0x5121 State.reset
    s.passesLoopHead = true ∧ s.canFetch = true ∧ ∀ r ∈ opcodeTable, s.mem.readWord s.pc.toNat &&& r.mask ≠ r.value := by decide

theorem witness_OnlyAStoppedMachineHasNoStep :
    State.reset.run = .running ∧ { State.reset with run := .stopped .stopSignal }.run = .stopped .stopSignal := by decide

theorem witness_EarlyEndRunsNoTick_stops :
    (nextState (step State.reset)).map (fun t => t.run) = some (.stopped .endOfProgram) := by decide

theorem witness_EarlyEndRunsNoTick_suspends :
    (nextState (step (ready 0xF30A State.reset))).map (fun t => t.keyWait) = some (some 3) := by decide

theorem witness_FaultsArePrecise_fetch :
    (nextState (step { State.reset with pc := 0xFFF, progEnd := 0x1000 })).map (fun t => t.run) =
    some (faulted (.fetchRange 0xFFF) 0xFFF none) := by decide

theorem witness_FaultsArePrecise_execute :
    (nextState (step (ready 0xF065 (State.reset.setI 0x1000)))).map (fun t => t.run) =
    some (faulted (.memRange 0x1000 1) 0x200 (some 0xF065)) := by decide

theorem witness_WaitForKeySuspends :
    let s := ready 0xF30A State.reset
    s.passesLoopHead = true ∧ s.canFetch = true ∧ decode (s.mem.read s.pc.toNat) (s.mem.read (s.pc.toNat + 1)) = .ok (.ldVxK 3) := by decide

theorem witness_KeyArrivalCompletesWait :
    let s := suspended { Inputs.quiet with waitKey := [.key 11] }
    s.run = .running ∧ s.keyWait = some 3 ∧ s.inputs.stopReq = false ∧ s.inputs.waitKey = [.key 11] := by decide

theorem witness_CancelledWaitStops :
    let s := suspended { Inputs.quiet with waitKey := [.noKey] }
    s.run = .running ∧ s.keyWait = some 3 ∧ s.inputs.stopReq = false ∧ s.inputs.waitKey = [.noKey] := by decide

theorem witness_StopRequestEndsWait :
    let s := suspended stopping
    s.run = .running ∧ s.keyWait = some 3 ∧ s.inputs.stopReq = true ∧ s.inputs.waitKey = [] := by decide

theorem witness_KeyWaitResolutions_unanswered :
    let s := suspended Inputs.quiet
    s.run = .running ∧ s.keyWait = some 3 ∧ s.inputs.stopReq = false ∧ s.inputs.waitKey = [] := by decide

theorem witness_KeyWaitResolutions_both :
    let s := suspended { stopping with waitKey := [.key 1] }
    s.run = .running ∧ s.keyWait = some 3 ∧ s.inputs.stopReq = true ∧ s.inputs.waitKey = [.key 1] := by decide

theorem witness_CallPushesReturnAddress :
    { State.reset with sp := 15 }.sp.val < 16 ∧ { State.reset with sp := 16 }.sp.val = 16 := by decide

theorem witness_ReturnPopsAddress :
    State.reset.sp.val = 0 ∧ { State.reset with sp := 16 }.sp.val = (15 : Fin 16).val + 1 := by decide

theorem witness_ReturnUndoesCall :
    State.reset.sp.val < 16 ∧ ∃ t, exec (.call 0xABC) State.reset = .next t := ⟨by decide, _, rfl⟩

theorem witness_ImmediateSkips : State.reset.getV 3 = 0 ∧ State.reset.getV 3 ≠ 1 := by decide

theorem witness_RegisterSkips :
    State.reset.getV 3 = State.reset.getV 4 ∧ counted.getV 3 ≠ counted.getV 4 ∧
    (0x5001#16).toNat % 16 ≠ 0 ∧ (0x5001#16).toNat / 0x1000 = 0x5 ∧ (0x9FFF#16).toNat % 16 ≠ 0 ∧ (0x9FFF#16).toNat / 0x1000 = 0x9 := by decide

theorem witness_RandomAndMasksTheDraw :
    (State.reset.setInputs { Inputs.quiet with randByte := [0xA5] }).inputs.randByte = [0xA5] ∧ State.reset.inputs.randByte = [] := by decide

theorem witness_DrawXorsTheSprite :
    State.reset.i.toNat + 15 - 1 ≤ 0xFFF ∧ 0xFFF < (State.reset.setI 0xFFF).i.toNat + 2 - 1 ∧ 0 < 2 := by decide

theorem witness_DrawTwiceRestores :
    (3 : RegIx) ≠ 15 ∧ (4 : RegIx) ≠ 15 ∧ inRange State.reset.i.toNat 5 = true ∧ ∃ t, exec (.drw 3 4 5) State.reset = .next t ∧
    (∀ r c, pixel State.reset.fb r c = false) ∧ pixel t.fb 0 0 = true := ⟨by decide, by decide, by decide, _, rfl, by decide, by decide⟩

theorem witness_BcdWritesThreeDigits :
    State.reset.mem.wf = true ∧ (State.reset.setI 0xFFD).i.toNat + 2 ≤ 0xFFF ∧ 0xFFF < (State.reset.setI 0xFFE).i.toNat + 2 := by decide

theorem witness_StoreRegistersWritesBlock :
    State.reset.mem.wf = true ∧ (State.reset.setI 0xFF0).i.toNat + (15 : RegIx).val ≤ 0xFFF ∧
    0xFFF < (State.reset.setI 0xFF1).i.toNat + (15 : RegIx).val := by decide

theorem witness_LoadRegistersReadsBlock :
    (State.reset.setI 0xFFF).i.toNat + (0 : RegIx).val ≤ 0xFFF ∧ 0xFFF < (State.reset.setI 0x1000).i.toNat + (0 : RegIx).val := by decide

theorem witness_SpillThenReloadRestores :
    (State.reset.setI 0x300).mem.wf = true ∧ (State.reset.setI 0x300).i.toNat + (2 : RegIx).val ≤ 0xFFF ∧
    ∃ t, exec (.storeRegs 2) (State.reset.setI 0x300) = .next t := ⟨by decide, by decide, _, rfl⟩

theorem witness_TimerRegisterMoves_ldVxDt :
    let s := ready 0xF307 State.reset
    s.passesLoopHead = true ∧ s.canFetch = true ∧ decodeWord (s.mem.readWord s.pc.toNat) = .ok (.ldVxDt 3) := by decide

theorem witness_TimerRegisterMoves_ldDtVx :
    let s := ready 0xF415 State.reset
    s.passesLoopHead = true ∧ s.canFetch = true ∧ decodeWord (s.mem.readWord s.pc.toNat) = .ok (.ldDtVx 4) := by decide

theorem witness_TimerRegisterMoves_ldStVx :
    let s := ready 0xF518 State.reset
    s.passesLoopHead = true ∧ s.canFetch = true ∧ decodeWord (s.mem.readWord s.pc.toNat) = .ok (.ldStVx 5) := by decide

theorem witness_KeySkipsAskTheKey :
    (regs [(1, 15)]).getV 1 = 15 ∧ (15 : Byte).toNat = (15 : Key).val ∧ (regs [(1, 15)]).inputs.keyHeld = [] ∧
    ((regs [(1, 15)]).setInputs { Inputs.quiet with keyHeld := [true] }).inputs.keyHeld = [true] := by decide

theorem witness_KeyNumberOutOfRangeFaults : 0xF < ((regs [(1, 0x10)]).getV 1).toNat := by decide

theorem witness_OnlyNamedInstructionsWriteEachField :
    ∃ t, exec (.ldI 0x22A) State.reset = .next t ∧ t.i ≠ State.reset.i := ⟨_, rfl, by decide⟩

theorem witness_RegisterWritersAreTheTable :
    ∃ t, exec (.addReg 0 1) (regs [(0, 0xFF), (1, 1)]) = .next t ∧ t.getV 15 ≠ (regs [(0, 0xFF), (1, 1)]).getV 15 := ⟨_, rfl, by decide⟩

theorem witness_RegistersNotReadDoNotMatter :
    Spec.readsV (.shr 2 3) 3 = false ∧ ∃ t, exec (.shr 2 3) State.reset = .next t := ⟨by decide, _, rfl⟩

theorem witness_StoresTouchOnlyTheirBlock :
    let s := State.reset.setI 0x300
    s.mem.wf = true ∧ 0x300 + Spec.storedBytes (.ldB 0) ≤ 0x303 ∧ s.i.toNat = 0x300 ∧ ∃ t, exec (.ldB 0) s = .next t := ⟨by decide, by decide, by decide, _, rfl⟩

theorem witness_EventsAreOnlyAppended :
    (nextState (step (ready 0x00E0 ((State.reset.setFb (oneOn 0 0)).setSt 2)))).map (fun t => (t.fb, t.trace)) =
    some (clearFb, [.render clearFb, .tone]) := by decide

theorem witness_ConstructionParametersNeverChange : (nextState (step (ready 0x1208 State.reset))).isSome = true := by decide

theorem witness_ConstructionBuildsTheResetState :
    [0x60#8, 0x05#8].length ≤ 3584 ∧ ∃ rom : List Byte, 3584 < rom.length := ⟨by decide, List.replicate 3585 0, by rw [List.length_replicate]; decide⟩

theorem witness_HostActsOnlyOnInputs :
    (State.reset.setInputs stopping).inputs.stopReq = true ∧ (nextState (step State.reset)).isSome = true := by decide

theorem witness_StepKeepsInvariant :
    State.reset.Inv ∧ ∃ t, step State.reset = .next t := ⟨⟨by decide, by decide, by decide, by decide, by decide, by decide⟩, _, rfl⟩

theorem witness_EveryReachableMachineMeetsInvariant :
    ∃ s, State.construct (some [0x60, 0x05]) (Vector.replicate 80 7) true = .ok s ∧ Reachable s := ⟨_, rfl, .construct (rom := some [0x60, 0x05]) (font := Vector.replicate 80 7) (attached := true) rfl⟩

theorem witness_PlacedWordIsRunNext : State.reset.mem.wf = true ∧ Instr.wf (.drw 0 1 5) = true := by decide

end Sys2Proof.Tests
end

/-! PROOFS. Frame of Execute, instruction by instruction, and the statement of 10_state.md about each field's writers. -/

namespace Sys2Proof.Machine

/-- `s` with the fields that Execute of `i` may write replaced by those of `t`; Run stands apart, since a bounds fault of
any instruction sets it. -/
def writtenBy (i : Instr) (s t : State) : State :=
  match i with
  | .cls => { s with fb := t.fb, trace := t.trace }
  | .drw _ _ _ => { s with v := t.v, fb := t.fb, trace := t.trace }
  | .ret => { s with pc := t.pc, sp := t.sp }
  | .call _ => { s with pc := t.pc, sp := t.sp, stack := t.stack }
  | .jp _ | .jpV0 _ | .seImm _ _ | .sneImm _ _ | .seReg _ _ | .sneReg _ _ => { s with pc := t.pc }
  | .skp _ | .sknp _ => { s with pc := t.pc, inputs := t.inputs }
  | .rnd _ _ => { s with v := t.v, inputs := t.inputs }
  | .ldI _ | .addI _ | .ldF _ => { s with i := t.i }
  | .ldDtVx _ => { s with dt := t.dt }
  | .ldStVx _ => { s with st := t.st }
  | .ldVxK _ => { s with keyWait := t.keyWait }
  | .ldB _ | .storeRegs _ => { s with mem := t.mem }
  | .ldImm _ _ | .addImm _ _ | .ldReg _ _ | .orReg _ _ | .andReg _ _ | .xorReg _ _ | .addReg _ _ | .sub _ _ | .shr _ _
  | .subn _ _ | .shl _ _ | .ldVxDt _ | .loadRegs _ => { s with v := t.v }

/-- An instruction's own bounds fault writes nothing but Run (R260). -/
theorem raiseFrom_eq_writtenBy (i : Instr) (s : State) (c : FaultCause) :
    s.raiseFrom i c = { writtenBy i s (s.raiseFrom i c) with run := (s.raiseFrom i c).run } := by
  cases i <;> rfl

/-- Execute of `i` writes only the fields of `writtenBy` and Run: it completes, or it takes a bounds fault. -/
theorem exec_eq_writtenBy {i : Instr} {s t : State} (h : exec i s = .next t) :
    t = { writtenBy i s t with run := t.run } := by
  cases i
  case ret =>
    obtain ⟨-, hpop⟩ | ⟨_, hpop⟩ := pop_cases s
    all_goals simp only [exec, execRet, hpop] at h; cases h
    · exact raiseFrom_eq_writtenBy ..
    · rfl
  case call nnn =>
    obtain ⟨-, hpush⟩ | ⟨_, hpush⟩ := push_cases s s.pc
    all_goals simp only [exec, execCall, hpush] at h; cases h
    · exact raiseFrom_eq_writtenBy ..
    · rfl
  case drw | ldB | storeRegs | loadRegs =>
    simp only [exec, execDrw, execLdB, execStoreRegs, execLoadRegs] at h
    split at h <;> cases h
    · rfl
    · exact raiseFrom_eq_writtenBy ..
  case skp | sknp =>
    simp only [exec, execSkp, execSknp] at h
    split at h <;> cases h
    · apply State.ext <;> simp [writtenBy]
    · exact raiseFrom_eq_writtenBy ..
  case rnd =>
    cases h
    apply State.ext <;> simp [writtenBy]
  all_goals
    cases h
    rfl

/-- Settles O45: with `t` written as `s` overwritten in the fields of `writtenBy i`, each clause is about a field that `i`
keeps, or its conclusion names `i`. -/
theorem onlyNamedInstructionsWriteEachField : Obligations.OnlyNamedInstructionsWriteEachField := by
  unfold Obligations.OnlyNamedInstructionsWriteEachField
  intro i s t h
  rw [exec_eq_writtenBy h]
  cases i <;> simp [writtenBy]

end Sys2Proof.Machine

/-! PROOFS. The encoder undoes the decoder, a word that matches a row of the opcode table decodes within that row, and the
statement of 30_encoding.md about the table. -/

namespace Sys2Proof

/-! Each second-level dispatch answers an instruction whose word is the one dispatched on (R85). -/

theorem encode_of_decodeFamily0 {n2 : BitVec 4} {low : Byte} {i : Instr} (h : decodeFamily0 n2 low = .ok i) :
    encode i = encodeFA 0x0#4 (addrOf n2 low) := by
  simp only [decodeFamily0] at h
  split at h
  · next e => cases h; rw [e.1, e.2]; rfl
  · split at h
    · next e => cases h; rw [e.1, e.2]; rfl
    · cases h

theorem encode_of_decodeFamily8 {x y : RegIx} {f : BitVec 4} {i : Instr} (h : decodeFamily8 x y f = .ok i) :
    encode i = encodeFR 0x8#4 x y f := by
  unfold decodeFamily8 at h
  split at h <;> cases h <;> rfl

theorem encode_of_decodeFamilyE {x : RegIx} {low : Byte} {i : Instr} (h : decodeFamilyE x low = .ok i) :
    encode i = encodeFI 0xE#4 x low := by
  unfold decodeFamilyE at h
  split at h <;> cases h <;> rfl

theorem encode_of_decodeFamilyF {x : RegIx} {low : Byte} {i : Instr} (h : decodeFamilyF x low = .ok i) :
    encode i = encodeFI 0xF#4 x low := by
  unfold decodeFamilyF at h
  split at h <;> cases h <;> rfl

/-- An instruction decoded from a word's fields has that word; families with one instruction need no second level (R84). -/
theorem encode_of_decode {op n2 : BitVec 4} {low : Byte} {i : Instr} (h : decode (byteOf op n2) low = .ok i) :
    encode i = encodeFA op (addrOf n2 low) := by
  obtain ⟨n3, n4, rfl⟩ : ∃ n3 n4, low = byteOf n3 n4 := ⟨_, _, (byteOf_nibbles low).symm⟩
  simp only [decode, highNibble_byteOf, lowNibble_byteOf] at h
  split at h
  case h_1 => exact encode_of_decodeFamily0 h
  case h_6 | h_10 =>
    split at h
    · next e => cases h; simp [encode, encodeFR, encodeFI, e]
    · cases h
  case h_9 => rw [encode_of_decodeFamily8 h]; simp [encodeFR, encodeFI]
  case h_15 => rw [encode_of_decodeFamilyE h]; simp [encodeFI]
  case h_16 =>
    rw [encode_of_decodeFamilyF h, show op = 0xF#4 by revert op; decide]; simp [encodeFI]
  all_goals
    cases h
    simp [encode, encodeFR, encodeFI]

/-- The word of a decoded instruction is the word it was decoded from: no bit is dropped (R81, R82). -/
theorem encode_of_decodeWord {w : Word} {i : Instr} (h : decodeWord w = .ok i) : encode i = w := by
  obtain ⟨op, a, rfl⟩ := exists_encodeFA w
  obtain ⟨n2, low, rfl⟩ := exists_addrOf a
  exact encode_of_decode (decodeWord_encodeFA op n2 low ▸ h)

/-- Every word is op, x, y and its last nibble (R81). -/
theorem exists_encodeFR (w : Word) : ∃ op x y f, w = encodeFR op x y f := by
  obtain ⟨op, a, rfl⟩ := exists_encodeFA w
  obtain ⟨n2, low, rfl⟩ := exists_addrOf a
  exact ⟨op, regOf n2, regOf (highNibble low), lowNibble low, by simp [encodeFR, encodeFI]⟩

/-! The word of a row has the row's format, with the value's fields: one lemma per mask, each the converse of the lemma of
`Laws.EncodeInRow` for that mask. -/

theorem eq_encodeFR_of_mask_F000 {w v : Word} (h : w &&& 0xF000#16 = v) :
    ∃ x y f, w = encodeFR (v.extractLsb' 12 4) x y f := by
  obtain ⟨op, x, y, f, rfl⟩ := exists_encodeFR w
  obtain rfl := (Laws.EncodeInRow.fd op x y f).symm.trans h
  exact ⟨x, y, f, by rw [BitVec.extractLsb'_append_eq_left]⟩

theorem eq_encodeFI_of_mask_F0FF {w v : Word} (h : w &&& 0xF0FF#16 = v) :
    ∃ x, w = encodeFI (v.extractLsb' 12 4) x (v.extractLsb' 0 8) := by
  obtain ⟨op, x, y, f, rfl⟩ := exists_encodeFR w
  obtain rfl := (Laws.EncodeInRow.fx op x (byteOf (regField y) f)).symm.trans h
  have hlow := lowByte_encodeFA op 0#4 (byteOf (regField y) f)
  exact ⟨x, by rw [BitVec.extractLsb'_append_eq_left]; exact (congrArg (encodeFI op x) hlow).symm⟩

theorem eq_encodeFR_of_mask_F00F {w v : Word} (h : w &&& 0xF00F#16 = v) :
    ∃ x y, w = encodeFR (v.extractLsb' 12 4) x y (v.extractLsb' 0 4) := by
  obtain ⟨op, x, y, f, rfl⟩ := exists_encodeFR w
  obtain rfl := (Laws.EncodeInRow.fr op x y f).symm.trans h
  have hf : ∀ op f : BitVec 4, (op ++ (0#4 ++ (0#4 ++ f))).extractLsb' 0 4 = f := by decide
  exact ⟨x, y, by rw [BitVec.extractLsb'_append_eq_left]; exact (congrArg (encodeFR op x y) (hf op f)).symm⟩

/-- A word that matches an instruction's row decodes to an instruction of that row: the mask covers every field that the
decoder dispatches on (R84 to R86). -/
theorem exists_decodeWord_of_mask {w : Word} {i : Instr} (h : w &&& i.row.mask = i.row.value) :
    ∃ j, decodeWord w = .ok j ∧ j.row = i.row := by
  cases i
  case cls | ret =>
    obtain rfl := BitVec.and_allOnes.symm.trans h
    exact ⟨_, rfl, rfl⟩
  case skp | sknp | ldVxDt | ldVxK | ldDtVx | ldStVx | addI | ldF | ldB | storeRegs | loadRegs =>
    obtain ⟨x, rfl⟩ := eq_encodeFI_of_mask_F0FF h
    simp [decodeWord_encodeFI, decode, decodeFamilyE, decodeFamilyF, Instr.row]
  case seReg | sneReg | ldReg | orReg | andReg | xorReg | addReg | sub | shr | subn | shl =>
    obtain ⟨x, y, rfl⟩ := eq_encodeFR_of_mask_F00F h
    simp [decodeWord_encodeFR, decode, decodeFamily8, Instr.row]
  all_goals
    obtain ⟨x, y, f, rfl⟩ := eq_encodeFR_of_mask_F000 h
    simp [decodeWord_encodeFR, decode, Instr.row]

/-- The word of every instruction matches the instruction's row (R86), by the formats of R83. -/
theorem encode_and_mask (i : Instr) : encode i &&& i.row.mask = i.row.value := by
  cases i
  case cls | ret => rfl
  case jp | call | ldI | jpV0 => exact Laws.EncodeInRow.fa ..
  case drw => exact Laws.EncodeInRow.fd ..
  case seReg | sneReg | ldReg | orReg | andReg | xorReg | addReg | sub | shr | subn | shl =>
    exact Laws.EncodeInRow.fr ..
  case seImm | sneImm | ldImm | addImm | rnd => exact Laws.EncodeInRow.fi ..
  all_goals exact Laws.EncodeInRow.fx ..

/-- The words that match an instruction's row are those that decode to an instruction of that row (R86). -/
theorem and_mask_row_iff (w : Word) (i : Instr) :
    w &&& i.row.mask = i.row.value ↔ ∃ j, decodeWord w = .ok j ∧ j.row = i.row := by
  refine ⟨exists_decodeWord_of_mask, fun ⟨j, hj, hrow⟩ => ?_⟩
  rw [← hrow, ← encode_of_decodeWord hj]
  exact encode_and_mask j

/-- Every row of the opcode table is the row of an instruction. -/
theorem exists_row_of_mem_opcodeTable : ∀ r ∈ opcodeTable, ∃ i : Instr, i.row = r := by
  simp only [opcodeTable, List.forall_mem_append, List.forall_mem_cons, exists_apply_eq_apply]
  simp

/-- Settles O3: a word matches a row iff it decodes within it (`and_mask_row_iff`), so two rows that match one word are both
the row of the one instruction it decodes to. -/
theorem decodeFollowsOpcodeTable : Obligations.DecodeFollowsOpcodeTable := by
  unfold Obligations.DecodeFollowsOpcodeTable
  have hmatch : ∀ r ∈ opcodeTable, ∀ w : Word,
      w &&& r.mask = r.value ↔ ∃ i : Instr, decodeWord w = .ok i ∧ i.row = r := by
    intro r hr w
    obtain ⟨i, rfl⟩ := exists_row_of_mem_opcodeTable r hr
    exact and_mask_row_iff w i
  refine ⟨rfl, fun r hr r' hr' w h h' => ?_, hmatch⟩
  obtain ⟨i, hi, rfl⟩ := (hmatch r hr w).mp h
  obtain ⟨i', hi', rfl⟩ := (hmatch r' hr' w).mp h'
  obtain rfl : i = i' := Except.ok.inj (hi.symm.trans hi')
  rfl

end Sys2Proof

/-! PROOFS. The timer tick iterated, and the statement of 40_cycle.md about n ticks. -/

namespace Sys2Proof.Machine

/-- A timer's count down as a number: truncated subtraction, so never below 0 (R121). -/
@[simp] theorem toNat_countDown (b : Byte) : (countDown b).toNat = b.toNat - 1 := by
  by_cases h : b = 0
  · simp [countDown, h]
  · rw [countDown, if_neg h]; bv_omega

/-- The trace of one tick in the form that adds up over ticks (R122). -/
theorem timerTick_trace_eq_append (s : State) :
    s.timerTick.trace = s.trace ++ List.replicate (min 1 s.st.toNat) .tone := by
  by_cases h : s.st = 0
  · simp [h]
  · have hone : min 1 s.st.toNat = 1 := by bv_omega
    rw [timerTick_trace, if_neg h, hone, List.replicate_one]

/-- After n ticks DT is less by n, but not below 0 (R121). -/
theorem toNat_dt_iterate_timerTick (s : State) (n : Nat) :
    (State.timerTick^[n] s).dt.toNat = s.dt.toNat - n := by
  induction n with
  | zero => rfl
  | succ n ih => rw [Function.iterate_succ_apply', timerTick_dt, toNat_countDown, ih, Nat.sub_sub]

/-- After n ticks ST is less by n, but not below 0 (R122). -/
theorem toNat_st_iterate_timerTick (s : State) (n : Nat) :
    (State.timerTick^[n] s).st.toNat = s.st.toNat - n := by
  induction n with
  | zero => rfl
  | succ n ih => rw [Function.iterate_succ_apply', timerTick_st, toNat_countDown, ih, Nat.sub_sub]

/-- Tick n + 1 sounds exactly when ST is still nonzero after n ticks, so n ticks sound min(n, ST) times (R122). -/
theorem trace_iterate_timerTick (s : State) (n : Nat) :
    (State.timerTick^[n] s).trace = s.trace ++ List.replicate (min n s.st.toNat) .tone := by
  induction n with
  | zero => simp
  | succ n ih =>
    have hcount : min (n + 1) s.st.toNat = min n s.st.toNat + min 1 (s.st.toNat - n) := by omega
    rw [Function.iterate_succ_apply', timerTick_trace_eq_append, ih, toNat_st_iterate_timerTick, hcount,
      List.replicate_add, List.append_assoc]

/-- Ticks write DT, ST and the trace only (R122): `timerTick_frame` for any number of ticks. -/
theorem iterate_timerTick_frame (s : State) (n : Nat) :
    State.timerTick^[n] s =
      { s with
        dt := (State.timerTick^[n] s).dt, st := (State.timerTick^[n] s).st, trace := (State.timerTick^[n] s).trace } := by
  induction n generalizing s with
  | zero => rfl
  | succ n ih =>
    rw [Function.iterate_succ_apply]
    refine (ih s.timerTick).trans ?_
    simp only [timerTick_mem, timerTick_v, timerTick_i, timerTick_pc, timerTick_stack, timerTick_sp, timerTick_fb,
      timerTick_progEnd, timerTick_run, timerTick_keyWait, timerTick_displayAttached, timerTick_inputs]

/-- Settles O15, from the four lemmas on iterated ticks: each timer's number, the trace, the frame. -/
theorem ticksCountTimersDownAndSoundTones : Obligations.TicksCountTimersDownAndSoundTones := by
  unfold Obligations.TicksCountTimersDownAndSoundTones
  intro s n
  exact ⟨toNat_dt_iterate_timerTick s n, toNat_st_iterate_timerTick s n, trace_iterate_timerTick s n,
    iterate_timerTick_frame s n⟩

end Sys2Proof.Machine

/-! PROOFS. Control flow: jumps, skips and the call stack, and the statements of 41_flow.md about each. -/

namespace Sys2Proof

/-- Nibble 1 of a word as a number (R81). -/
theorem toNat_highNibble_highByte (w : Word) : (highNibble (highByte w)).toNat = w.toNat / 0x1000 := by
  simp only [highNibble, highByte, BitVec.extractLsb'_toNat, Nat.shiftRight_eq_div_pow]
  omega

/-- Nibble 4 of a word as a number (R81). -/
theorem toNat_lowNibble_lowByte (w : Word) : (lowNibble (lowByte w)).toNat = w.toNat % 16 := by
  simp only [lowNibble, lowByte, BitVec.extractLsb'_toNat, Nat.shiftRight_zero]
  omega

/-- Families 5 and 9 need nibble 4 to be 0 (R85, R88). -/
theorem decodeWord_of_nibble4_ne_zero {w : Word} (h : w.toNat % 16 ≠ 0) :
    (w.toNat / 0x1000 = 0x5 → decodeWord w = .error .family5) ∧
    (w.toNat / 0x1000 = 0x9 → decodeWord w = .error .family9) := by
  rw [← toNat_lowNibble_lowByte] at h
  rw [← toNat_highNibble_highByte]
  have hlast : lowNibble (lowByte w) ≠ 0x0#4 := fun e => h (by rw [e]; rfl)
  constructor <;> intro hfirst
  · have hop : highNibble (highByte w) = 0x5#4 := BitVec.eq_of_toNat_eq hfirst
    simp [decodeWord, decode, hop, hlast]
  · have hop : highNibble (highByte w) = 0x9#4 := BitVec.eq_of_toNat_eq hfirst
    simp [decodeWord, decode, hop, hlast]

end Sys2Proof

namespace Sys2Proof.Machine

/-- `zext_16` of a 12-bit address keeps its value (R82). -/
@[simp] theorem toNat_addrOperand (nnn : Addr12) : (addrOperand nnn).toNat = nnn.toNat :=
  BitVec.toNat_setWidth_of_le (by decide)

/-- The target of Bnnn never wraps: the sum is at most 0xFFF + 0xFF (R148). -/
theorem toNat_addrOperand_add_zext16 (nnn : Addr12) (b : Byte) :
    (addrOperand nnn + zext16 b).toNat = nnn.toNat + b.toNat := by
  have hzext : (zext16 b).toNat = b.toNat := BitVec.toNat_setWidth_of_le (by decide)
  rw [BitVec.toNat_add, toNat_addrOperand, hzext]
  omega

/-- A skip on equal adds 2 to PC if the operands are equal and changes nothing otherwise (R25). -/
theorem skipIf_beq (s : State) (a b : Byte) :
    s.skipIf (a == b) = if a = b then { s with pc := s.pc + 2 } else s := by
  by_cases h : a = b
  · rw [if_pos h, beq_iff_eq.mpr h]; rfl
  · rw [if_neg h, beq_eq_false_iff_ne.mpr h]; rfl

/-- A skip on unequal is `skipIf_beq` the other way round (R25). -/
theorem skipIf_bne (s : State) (a b : Byte) :
    s.skipIf (a != b) = if a = b then s else { s with pc := s.pc + 2 } := by
  by_cases h : a = b
  · rw [if_pos h, bne, beq_iff_eq.mpr h]; rfl
  · rw [if_neg h, bne, beq_eq_false_iff_ne.mpr h]; rfl

/-- A push with room: `push_cases` where SP is below 16 (R143). -/
theorem push_of_lt {s : State} (ra : Word) (h : s.sp.val < 16) :
    s.push ra = some { s with stack := s.stack.set s.sp.val ra, sp := ⟨s.sp.val + 1, by omega⟩ } := by
  obtain ⟨hfull, -⟩ | ⟨_, hpush⟩ := push_cases s ra
  · omega
  · exact hpush

/-- A push on a full stack fails: `push_cases` where SP is 16 (R143). -/
theorem push_of_full {s : State} (ra : Word) (h : s.sp.val = 16) : s.push ra = none := by
  obtain ⟨-, hpush⟩ | ⟨hroom, -⟩ := push_cases s ra
  · exact hpush
  · omega

/-- A pop of a stack that holds k + 1 entries: `pop_cases` with the popped slot named (R141). -/
theorem pop_of_eq_succ {s : State} (k : Fin 16) (h : s.sp.val = k.val + 1) :
    s.pop = some (s.stack[k], { s with sp := ⟨k.val, by omega⟩ }) := by
  obtain ⟨hempty, -⟩ | ⟨_, hpop⟩ := pop_cases s
  · omega
  · simp [hpop, h]

/-- A pop of an empty stack fails: `pop_cases` where SP is 0 (R141). -/
theorem pop_of_empty {s : State} (h : s.sp.val = 0) : s.pop = none := by
  obtain ⟨-, hpop⟩ | ⟨hpos, -⟩ := pop_cases s
  · exact hpop
  · omega

/-- Settles O23: `push_of_lt` gives the state after, slot by slot; `push_of_full` is the overflow. -/
theorem callPushesReturnAddress : Obligations.CallPushesReturnAddress := by
  unfold Obligations.CallPushesReturnAddress
  refine fun nnn s => ⟨fun h => ?_, fun h => ?_⟩
  · refine ⟨_, by rw [exec, execCall, push_of_lt s.pc h], toNat_addrOperand nnn, rfl, fun k => ?_, rfl⟩
    simp [Vector.getElem_set, eq_comm]
  · rw [exec, execCall, push_of_full s.pc h, h]
    rfl

/-- Settles O24: `pop_of_eq_succ` gives the state after; `pop_of_empty` is the underflow. -/
theorem returnPopsAddress : Obligations.ReturnPopsAddress := by
  unfold Obligations.ReturnPopsAddress
  refine fun s => ⟨fun k h => ?_, fun h => ?_⟩
  · exact ⟨_, by rw [exec, execRet, pop_of_eq_succ k h], rfl, rfl⟩
  · rw [exec, execRet, pop_of_empty h, h]
    rfl

/-- Settles O22: each jump sets PC only, and neither target wraps. -/
theorem jumpsSetPc : Obligations.JumpsSetPc := by
  unfold Obligations.JumpsSetPc
  exact fun nnn s =>
    ⟨⟨_, rfl, toNat_addrOperand nnn, rfl⟩, ⟨_, rfl, toNat_addrOperand_add_zext16 nnn (s.getV 0), rfl⟩⟩

/-- Settles O26: the two forms skip on the two answers of one comparison (`skipIf_beq`, `skipIf_bne`). -/
theorem immediateSkips : Obligations.ImmediateSkips := by
  unfold Obligations.ImmediateSkips
  refine fun x nn s => ⟨fun h => ?_, fun h => ?_⟩ <;>
    simp only [exec, execSeImm, execSneImm, skipIf_beq, skipIf_bne, h, if_true, if_false, and_self]

/-- Settles O27: as for the immediate forms; the refused words are `decodeWord_of_nibble4_ne_zero`. -/
theorem registerSkips : Obligations.RegisterSkips := by
  unfold Obligations.RegisterSkips
  refine ⟨fun x y s => ⟨fun h => ?_, fun h => ?_⟩, fun w h => decodeWord_of_nibble4_ne_zero h⟩ <;>
    simp only [exec, execSeReg, execSneReg, skipIf_beq, skipIf_bne, h, if_true, if_false, and_self]

end Sys2Proof.Machine

/-! PROOFS. Arithmetic and logic: the flags and the results as numbers, and the statements of 42_alu.md about each form. -/

namespace Sys2Proof.Machine

/-! What the flag computations put into VF, as numbers (R10). -/

@[simp] theorem toNat_flagByte (f : Bool) : (flagByte f).toNat = f.toNat := by
  cases f <;> rfl

/-- The carry flag of 8xy4 (R167). -/
theorem toNat_flagByte_carry (a b : Byte) :
    (flagByte (carry a b)).toNat = if 255 < a.toNat + b.toNat then 1 else 0 := by
  rw [toNat_flagByte, carry, Bool.toNat, Bool.cond_decide]

/-- The flag of 8xy5 and 8xy7 (R168, R170). -/
theorem toNat_flagByte_notBorrow (minuend subtrahend : Byte) :
    (flagByte (notBorrow minuend subtrahend)).toNat = if subtrahend.toNat ≤ minuend.toNat then 1 else 0 := by
  rw [toNat_flagByte, notBorrow, Bool.toNat, Bool.cond_decide]

/-- Bit 0 is the remainder by 2 (R169). -/
theorem toNat_flagByte_shiftedOutRight (b : Byte) : (flagByte (shiftedOutRight b)).toNat = b.toNat % 2 := by
  rw [toNat_flagByte, shiftedOutRight, BitVec.getLsbD, Nat.toNat_testBit, pow_zero, Nat.div_one]

/-- Bit 7 is the quotient by 128, since a byte is below 256 (R171). -/
theorem toNat_flagByte_shiftedOutLeft (b : Byte) : (flagByte (shiftedOutLeft b)).toNat = b.toNat / 128 := by
  rw [toNat_flagByte, shiftedOutLeft, BitVec.getLsbD, Nat.toNat_testBit]
  omega

/-! The results as numbers. -/

/-- The wrapped difference (R168, R170). -/
theorem toNat_byte_sub (a b : Byte) : (a - b).toNat = (a.toNat + 256 - b.toNat) % 256 := by
  rw [BitVec.toNat_sub]
  omega

/-- A shift right by one halves (R169). -/
theorem toNat_byte_shiftRight_one (b : Byte) : (b >>> 1).toNat = b.toNat / 2 := by
  rw [BitVec.toNat_ushiftRight, Nat.shiftRight_one]

/-- A shift left by one doubles modulo 256 (R171). -/
theorem toNat_byte_shiftLeft_one (b : Byte) : (b <<< 1).toNat = b.toNat * 2 % 256 := by
  rw [BitVec.toNat_shiftLeft, Nat.shiftLeft_eq, pow_one]

/-! What a register holds after each kind of write, as a number. -/

/-- `getV_setV` for a byte whose number is `result`. -/
theorem toNat_getV_setV {b : Byte} {result : Nat} (hb : b.toNat = result) (s : State) (x r : RegIx) :
    ((s.setV x b).getV r).toNat = if r = x then result else (s.getV r).toNat := by
  rw [getV_setV, apply_ite BitVec.toNat, hb]

/-- `getV_setResult` for a result and a flag with the numbers `result` and `flag`: VF takes the flag, also when x = F
(R160). -/
theorem toNat_getV_setResult {b : Byte} {f : Bool} {result flag : Nat} (hb : b.toNat = result)
    (hf : (flagByte f).toNat = flag) (s : State) (x r : RegIx) :
    ((s.setResult x b f).getV r).toNat =
      if r = 15 then flag else if r = x then result else (s.getV r).toNat := by
  rw [getV_setResult, apply_ite BitVec.toNat, apply_ite BitVec.toNat, hb, hf]
  rfl

/-- Settles O30: the result is the sum as a number, the flag is `toNat_flagByte_carry`. -/
theorem addSetsCarry : Obligations.AddSetsCarry := by
  unfold Obligations.AddSetsCarry
  exact fun x y s => ⟨_, rfl, toNat_getV_setResult (BitVec.toNat_add ..) (toNat_flagByte_carry ..) s x, rfl⟩

/-- Settles O31: SUB and SUBN are one subtraction with the operands exchanged. -/
theorem subtractionsSetNotBorrow : Obligations.SubtractionsSetNotBorrow := by
  unfold Obligations.SubtractionsSetNotBorrow
  exact fun x y s =>
    ⟨⟨_, rfl, toNat_getV_setResult (toNat_byte_sub ..) (toNat_flagByte_notBorrow ..) s x, rfl⟩,
      ⟨_, rfl, toNat_getV_setResult (toNat_byte_sub ..) (toNat_flagByte_notBorrow ..) s x, rfl⟩⟩

/-- Settles O32: each shift is a quotient or a product, and the bit shifted out is what that leaves over. -/
theorem shiftsSetTheBitShiftedOut : Obligations.ShiftsSetTheBitShiftedOut := by
  unfold Obligations.ShiftsSetTheBitShiftedOut
  exact fun x y s =>
    ⟨⟨_, rfl, toNat_getV_setResult (toNat_byte_shiftRight_one _) (toNat_flagByte_shiftedOutRight _) s x, rfl⟩,
      ⟨_, rfl, toNat_getV_setResult (toNat_byte_shiftLeft_one _) (toNat_flagByte_shiftedOutLeft _) s x, rfl⟩⟩

/-- Settles O28: one register write each, the sum taken as a number. -/
theorem immediateLoadAndAdd : Obligations.ImmediateLoadAndAdd := by
  unfold Obligations.ImmediateLoadAndAdd
  exact fun x nn s =>
    ⟨⟨_, rfl, fun r => getV_setV s x r nn, rfl⟩, ⟨_, rfl, toNat_getV_setV (BitVec.toNat_add ..) s x, rfl⟩⟩

/-- Settles O29: one register write each; the three operations act bit by bit. -/
theorem moveAndBitwise : Obligations.MoveAndBitwise := by
  unfold Obligations.MoveAndBitwise
  intro x y s
  refine ⟨⟨_, rfl, getV_setV_same .., fun r => getV_setV_other s _, rfl⟩,
    ⟨_, rfl, fun k _ => ?or, fun r => getV_setV_other s _, rfl⟩,
    ⟨_, rfl, fun k _ => ?and, fun r => getV_setV_other s _, rfl⟩,
    ⟨_, rfl, fun k _ => ?xor, fun r => getV_setV_other s _, rfl⟩⟩
  case or => rw [getV_setV_same, BitVec.getLsbD_or]
  case and => rw [getV_setV_same, BitVec.getLsbD_and]
  case xor => rw [getV_setV_same, BitVec.getLsbD_xor]

end Sys2Proof.Machine

/-! PROOFS. The framebuffer: which pixels a sprite read from memory covers, what Dxyn answers in each of its two cases, and
the statements of 43_display.md about 00E0 and Dxyn. -/

namespace Sys2Proof.Machine

/-- Drawing inverts exactly the pixels that the sprite covers (R192, R194). -/
theorem pixel_drawSprite (fb : Framebuffer) (vx vy : Byte) (bytes : List Byte) (r : Fin 32) (c : Fin 64) :
    pixel (drawSprite fb vx vy bytes).1 r c =
      (pixel fb r c ^^ covers (anchorColumn vx) (anchorRow vy) bytes r c) :=
  pixel_plotRows ..

/-- Drawing collides iff the sprite covers a pixel that was on (R193). -/
theorem collide_drawSprite (fb : Framebuffer) (vx vy : Byte) (bytes : List Byte) :
    (drawSprite fb vx vy bytes).2 = true ↔
      ∃ r c, covers (anchorColumn vx) (anchorRow vy) bytes r c = true ∧ pixel fb r c = true := by
  simp [drawSprite, collide_plotRows]

/-- A sprite of n bytes in memory covers the pixels k rows and j columns past its anchor where bit 7 - j of byte k is set:
column 0 of a sprite byte is its most significant bit (R9, R192). -/
theorem covers_readBlock_iff (cx row : Nat) (m : Memory) (a n : Nat) (r : Fin 32) (c : Fin 64) :
    covers cx row (m.readBlock a n) r c = true ↔
      ∃ k j, k < n ∧ j < 8 ∧ r.val = row + k ∧ c.val = cx + j ∧ (m.read (a + k)).getLsbD (7 - j) = true := by
  simp only [covers, readBlock_getD, Bool.and_eq_true, decide_eq_true_eq]
  constructor
  · rintro ⟨⟨hrow, hcol⟩, hbit⟩
    by_cases hk : r.val - row < n
    · rw [if_pos hk, BitVec.getMsbD, Bool.and_eq_true, decide_eq_true_eq] at hbit
      obtain ⟨hj, hbit⟩ := hbit
      exact ⟨r.val - row, c.val - cx, hk, hj, by omega, by omega, hbit⟩
    · simp [hk] at hbit
  · rintro ⟨k, j, hk, hj, hr, hc, hbit⟩
    refine ⟨by omega, ?_⟩
    rw [hr, hc, Nat.add_sub_cancel_left, Nat.add_sub_cancel_left, if_pos hk, BitVec.getMsbD, decide_eq_true hj]
    exact hbit

/-- `s` after a draw with framebuffer and collision `drawn`: VF is written last, then the framebuffer is emitted (R192). -/
def State.showDrawn (s : State) (drawn : Framebuffer × Bool) : State :=
  ((s.setFb drawn.1).setV flagReg (flagByte drawn.2)).emit (.render drawn.1)

@[simp] theorem showDrawn_fb (s : State) (drawn : Framebuffer × Bool) : (s.showDrawn drawn).fb = drawn.1 := rfl

/-- A draw writes no register but VF (R192). -/
@[simp] theorem getV_showDrawn (s : State) (drawn : Framebuffer × Bool) (q : RegIx) :
    (s.showDrawn drawn).getV q = if q = 15 then flagByte drawn.2 else s.getV q :=
  getV_setV ..

/-- Dxyn with its sprite in memory draws it (R192). -/
theorem exec_drw_of_inRange {s : State} {n : Nat} (x y : RegIx) (h : inRange s.i.toNat n = true) :
    exec (.drw x y n) s =
      .next (s.showDrawn (drawSprite s.fb (s.getV x) (s.getV y) (s.mem.readBlock s.i.toNat n))) := by
  rw [exec, execDrw, if_pos h]
  rfl

/-- Dxyn with a sprite that passes the end of memory faults (R195). -/
theorem exec_drw_of_not_inRange {s : State} {n : Nat} (x y : RegIx) (h : ¬ inRange s.i.toNat n = true) :
    exec (.drw x y n) s = .next (s.raiseFrom (.drw x y n) (.memRange s.i n)) := by
  rw [exec, execDrw, if_neg h]

/-- Settles O35: the statement's inverted pixels are those the sprite covers (`covers_readBlock_iff`), so the framebuffer is
`pixel_drawSprite` and VF is `collide_drawSprite`. -/
theorem drawXorsTheSprite : Obligations.DrawXorsTheSprite := by
  unfold Obligations.DrawXorsTheSprite
  intro x y n s hit
  have hcov : ∀ r c, covers (anchorColumn (s.getV x)) (anchorRow (s.getV y)) (s.mem.readBlock s.i.toNat n) r c = true ↔
      hit r c := covers_readBlock_iff _ _ s.mem s.i.toNat n
  have hcoll := collide_drawSprite s.fb (s.getV x) (s.getV y) (s.mem.readBlock s.i.toNat n)
  simp only [hcov] at hcoll
  refine ⟨fun h => ⟨_, exec_drw_of_inRange x y ?inMemory, fun r c => ⟨fun hrc => ?inverted, fun hrc => ?kept⟩,
    fun hlit => ?collision, fun hdark => ?noCollision, fun q hq => ?otherRegister, rfl⟩, fun hpos hpast => ?fault⟩
  case inMemory => rw [inRange_iff, Config.memSize]; omega
  case inverted => simp [pixel_drawSprite, (hcov r c).mpr hrc]
  case kept => simp [pixel_drawSprite, Bool.eq_false_iff.mpr (mt (hcov r c).mp hrc)]
  case collision => simp [hcoll.mpr hlit, flagByte]
  case noCollision => simp [Bool.eq_false_iff.mpr (mt hcoll.mp hdark), flagByte]
  case otherRegister => rw [getV_showDrawn, if_neg hq]
  case fault => exact exec_drw_of_not_inRange x y (by rw [inRange_iff, Config.memSize]; omega)

/-- Settles O34: the cleared framebuffer has no pixel on (`pixel_clearFb`). -/
theorem clearScreenClears : Obligations.ClearScreenClears := by
  unfold Obligations.ClearScreenClears
  exact fun s => ⟨_, rfl, pixel_clearFb, rfl⟩

end Sys2Proof.Machine

/-! PROOFS. The index register and the memory blocks: what the range check lets through, what LD B, LD [I], Vx and LD Vx, [I]
answer in each of their two cases, and the statements of 44_index_memory.md about each form. -/

namespace Sys2Proof.Machine

/-! The index register as a number. -/

/-- I plus a register wraps modulo 65536 (R211). -/
theorem toNat_add_zext16 (w : Word) (b : Byte) : (w + zext16 b).toNat = (w.toNat + b.toNat) % 65536 := by
  have hzext : (zext16 b).toNat = b.toNat := BitVec.toNat_setWidth_of_le (by decide)
  rw [BitVec.toNat_add, hzext]

/-- The address of a glyph never wraps: it is at most 5 * 255 (R212). -/
@[simp] theorem toNat_glyphAddress (b : Byte) : (glyphAddress b).toNat = 5 * b.toNat := by
  rw [glyphAddress, Config.fontBase, Config.glyphBytes, BitVec.toNat_ofNat]
  omega

/-- Settles O37: one write of I each, the address taken as a number. -/
theorem indexRegisterWrites : Obligations.IndexRegisterWrites := by
  unfold Obligations.IndexRegisterWrites
  exact fun nnn x s =>
    ⟨⟨_, rfl, toNat_addrOperand nnn, rfl⟩, ⟨_, rfl, toNat_add_zext16 s.i (s.getV x), rfl⟩,
      ⟨_, rfl, toNat_glyphAddress (s.getV x), rfl⟩⟩

/-! Blocks of memory. -/

/-- A block that is not empty passes the range check iff its last address is at most 0xFFF (R12). -/
theorem inRange_succ_iff (base k : Nat) : inRange base (k + 1) = true ↔ base + k ≤ 0xFFF := by
  rw [inRange_iff, Config.memSize]
  omega

/-- A block write puts byte `k` at `a + k`: `read_writeBlock` inside the block (R52). -/
theorem read_writeBlock_of_getElem? {m : Memory} (h : m.wf = true) {a k : Nat} {bs : List Byte} {b : Byte}
    (ha : a + bs.length ≤ Config.memSize) (hb : bs[k]? = some b) : (m.writeBlock a bs).read (a + k) = b := by
  obtain ⟨hk, -⟩ := List.getElem?_eq_some_iff.mp hb
  rw [read_writeBlock h ha, if_pos (by omega), Nat.add_sub_cancel_left, List.getD_eq_getElem?_getD, hb,
    Option.getD_some]

/-- A block write changes no address outside its block: `read_writeBlock` below and above it. -/
theorem read_writeBlock_outside {m : Memory} (h : m.wf = true) {a a' : Nat} {bs : List Byte}
    (ha : a + bs.length ≤ Config.memSize) (hout : a' < a ∨ a + bs.length ≤ a') :
    (m.writeBlock a bs).read a' = m.read a' := by
  rw [read_writeBlock h ha, if_neg (by omega)]

/-! What each memory instruction answers, by the last address of its block. -/

theorem exec_ldB_of_le (x : RegIx) {s : State} (h : s.i.toNat + 2 ≤ 0xFFF) :
    exec (.ldB x) s = .next (s.setMem (s.mem.writeBlock s.i.toNat (bcdDigits (s.getV x)))) :=
  if_pos ((inRange_succ_iff ..).mpr h)

theorem exec_ldB_of_gt (x : RegIx) {s : State} (h : 0xFFF < s.i.toNat + 2) :
    exec (.ldB x) s = .next (s.raiseFrom (.ldB x) (.memRange s.i 3)) :=
  if_neg (mt (inRange_succ_iff ..).mp h.not_ge)

theorem exec_storeRegs_of_le {x : RegIx} {s : State} (h : s.i.toNat + x.val ≤ 0xFFF) :
    exec (.storeRegs x) s = .next (s.setMem (s.mem.writeBlock s.i.toNat (s.regBlock (regCount x)))) :=
  if_pos ((inRange_succ_iff ..).mpr h)

theorem exec_storeRegs_of_gt {x : RegIx} {s : State} (h : 0xFFF < s.i.toNat + x.val) :
    exec (.storeRegs x) s = .next (s.raiseFrom (.storeRegs x) (.memRange s.i (regCount x))) :=
  if_neg (mt (inRange_succ_iff ..).mp h.not_ge)

theorem exec_loadRegs_of_le {x : RegIx} {s : State} (h : s.i.toNat + x.val ≤ 0xFFF) :
    exec (.loadRegs x) s = .next (s.setVs (loadBlock s.v 0 (s.mem.readBlock s.i.toNat (regCount x)))) :=
  if_pos ((inRange_succ_iff ..).mpr h)

theorem exec_loadRegs_of_gt {x : RegIx} {s : State} (h : 0xFFF < s.i.toNat + x.val) :
    exec (.loadRegs x) s = .next (s.raiseFrom (.loadRegs x) (.memRange s.i (regCount x))) :=
  if_neg (mt (inRange_succ_iff ..).mp h.not_ge)

/-! What the registers and the memory hold afterwards. -/

/-- The block of Fx55 has a byte for each of V0 to Vx (R214). -/
theorem length_regBlock_regCount (x : RegIx) (s : State) : (s.regBlock (regCount x)).length = x.val + 1 := by
  rw [regBlock_length, regCount]
  omega

/-- A load from memory gives V0 to Vx the bytes from `a` and keeps the registers above x (R215). -/
theorem getV_setVs_loadBlock_readBlock (s : State) (a : Nat) (x k : RegIx) :
    (s.setVs (loadBlock s.v 0 (s.mem.readBlock a (regCount x)))).getV k =
      if k ≤ x then s.mem.read (a + k.val) else s.getV k := by
  rw [State.getV, setVs_v, getElem_loadBlock, if_pos (Nat.zero_le _), Nat.sub_zero, readBlock_getD, regCount]
  simp only [Nat.lt_succ_iff, Fin.le_def, State.getV]

/-- Settles O38: the three digits are each below 256, so the bytes are their numbers; they stand at I, I + 1 and I + 2
(`read_writeBlock_of_getElem?`). -/
theorem bcdWritesThreeDigits : Obligations.BcdWritesThreeDigits := by
  unfold Obligations.BcdWritesThreeDigits
  refine fun x s hwf => ⟨fun h => ?_, exec_ldB_of_gt x⟩
  have hblock : s.i.toNat + (bcdDigits (s.getV x)).length ≤ Config.memSize := by
    rw [bcdDigits_length, Config.memSize]
    omega
  have hdigit : ∀ {k d : Nat}, (bcdDigits (s.getV x))[k]? = some (BitVec.ofNat 8 d) → d < 256 →
      ((s.mem.writeBlock s.i.toNat (bcdDigits (s.getV x))).read (s.i.toNat + k)).toNat = d := fun hk hd => by
    rw [read_writeBlock_of_getElem? hwf hblock hk, BitVec.toNat_ofNat, Nat.mod_eq_of_lt hd]
  exact ⟨_, exec_ldB_of_le x h, hdigit (k := 0) rfl (by omega), hdigit (k := 1) rfl (by omega),
    hdigit (k := 2) rfl (by omega),
    fun a ha => read_writeBlock_outside hwf hblock (by rw [bcdDigits_length]; omega), rfl⟩

/-- Settles O39: the block written is V0 to Vx (`regBlock_getElem?`), from I up. -/
theorem storeRegistersWritesBlock : Obligations.StoreRegistersWritesBlock := by
  unfold Obligations.StoreRegistersWritesBlock
  refine fun x s hwf => ⟨fun h => ?_, exec_storeRegs_of_gt⟩
  have hlen := length_regBlock_regCount x s
  have hblock : s.i.toNat + (s.regBlock (regCount x)).length ≤ Config.memSize := by
    rw [hlen, Config.memSize]
    omega
  exact ⟨_, exec_storeRegs_of_le h,
    fun k hk => read_writeBlock_of_getElem? hwf hblock (regBlock_getElem? s _ k (Nat.lt_succ_of_le hk) x.isLt),
    fun a ha => read_writeBlock_outside hwf hblock (by omega), rfl⟩

/-- Settles O40: register k takes byte k of the block read (`getV_setVs_loadBlock_readBlock`). -/
theorem loadRegistersReadsBlock : Obligations.LoadRegistersReadsBlock := by
  unfold Obligations.LoadRegistersReadsBlock
  exact fun x s =>
    ⟨fun h => ⟨_, exec_loadRegs_of_le h, getV_setVs_loadBlock_readBlock s s.i.toNat x, rfl⟩, exec_loadRegs_of_gt⟩

end Sys2Proof.Machine

/-! PROOFS. The timers and the keypad: what a step answers once its loop head passes and its word decodes, what each of
the four forms of a key wait answers, what the key instructions ask, and the statements of 45_timers_keys.md about each. -/

namespace Sys2Proof.Machine

/-! The iteration whose word decodes (R110 to R118). -/

/-- The state in which an iteration decodes and executes: PC is a + 2 and an attached display has answered (R114). -/
def State.atExecute (s : State) : State := { s with pc := s.pc + 2, inputs := s.afterLoopHead.inputs }

@[simp] theorem getV_atExecute (s : State) (r : RegIx) : s.atExecute.getV r = s.getV r := rfl

@[simp] theorem dt_atExecute (s : State) : s.atExecute.dt = s.dt := rfl

@[simp] theorem trace_atExecute (s : State) : s.atExecute.trace = s.trace := rfl

theorem setPc_afterLoopHead_eq_atExecute (s : State) : s.afterLoopHead.setPc (s.pc + 2) = s.atExecute := by
  rw [afterLoopHead_eq]
  rfl

/-- `step_cases` where the loop head passes and a word can be fetched: only the last case is left. -/
theorem step_eq_decodeExecute {s : State} (hpass : s.passesLoopHead = true) (hfetch : s.canFetch = true) :
    step s = decodeExecute (s.mem.readWord s.pc.toNat) s.atExecute := by
  obtain ⟨hrun, hkey, hlatch, hopen⟩ := (passesLoopHead_iff s).mp hpass
  obtain ⟨hlow, hhigh⟩ : s.pc.toNat < s.progEnd ∧ s.pc.toNat + 1 ≤ 0xFFF := by
    simpa [State.canFetch] using hfetch
  obtain ⟨_, h, -⟩ | ⟨_, -, h, -⟩ | ⟨-, -, h, -⟩ | ⟨-, -, -, hatt, hclosed, -⟩ | ⟨-, h, -⟩ | ⟨-, -, h, -⟩ | ⟨-, -, h⟩ :=
    step_cases s
  · simp [hrun] at h
  · simp [hkey] at h
  · simp [hlatch] at h
  · simp [hatt, hclosed] at hopen
  · omega
  · omega
  · rw [h, setPc_afterLoopHead_eq_atExecute]

theorem step_eq_endIteration {s t : State} {i : Instr} (hpass : s.passesLoopHead = true) (hfetch : s.canFetch = true)
    (hdecode : decodeWord (s.mem.readWord s.pc.toNat) = .ok i) (hexec : exec i s.atExecute = .next t) :
    step s = .next (endIteration t) := by
  simp only [step_eq_decodeExecute hpass hfetch, decodeExecute, hdecode, hexec, finish]

/-- Execute starts Running and not suspended, and without a fault or a suspension a tick ends the iteration (R118, R120). -/
theorem step_eq_timerTick {s t : State} {i : Instr} (hpass : s.passesLoopHead = true) (hfetch : s.canFetch = true)
    (hdecode : decodeWord (s.mem.readWord s.pc.toNat) = .ok i) (hexec : exec i s.atExecute = .next t)
    (hrun : t.run = s.run) (hkey : t.keyWait = s.keyWait) : step s = .next t.timerTick := by
  obtain ⟨hrunning, hawake, -⟩ := (passesLoopHead_iff s).mp hpass
  rw [step_eq_endIteration hpass hfetch hdecode hexec, endIteration, hrun, hkey, hrunning, hawake]

/-- An iteration that suspends runs no tick (R118, R236). -/
theorem endIteration_of_suspended {s : State} {x : RegIx} (h : s.keyWait = some x) : endIteration s = s := by
  obtain ⟨-, hnone, -⟩ | ⟨-, heq⟩ := endIteration_cases s
  · simp [h] at hnone
  · exact heq

/-- The word at `a` decodes as its two bytes do (R51, R81). -/
theorem decodeWord_readWord (m : Memory) (a : Nat) :
    decodeWord (m.readWord a) = decode (m.read a) (m.read (a + 1)) := by
  rw [decodeWord, Memory.readWord, highByte_wordOf, lowByte_wordOf]

/-! The key wait: one equation per case of what is pending (R237 to R240). -/

/-- `step_cases` for a suspended machine: it only resolves its wait (R117, R240). -/
theorem step_of_suspended {s : State} {x : RegIx} (hrun : s.run = .running) (hkey : s.keyWait = some x) :
    step s = .next (resolveWait x s) := by
  simp only [step, hrun, hkey]

theorem resolveWait_unanswered {s : State} (x : RegIx) (hstop : s.inputs.stopReq = false)
    (hwait : s.inputs.waitKey = []) : resolveWait x s = s := by
  simp only [resolveWait, hstop, hwait]

theorem resolveWait_stop {s : State} (x : RegIx) (hstop : s.inputs.stopReq = true)
    (hwait : s.inputs.waitKey = []) : resolveWait x s = waitStopped s := by
  simp only [resolveWait, hstop, hwait]

theorem resolveWait_both {s : State} {a : WaitAnswer} {rest : List WaitAnswer} (x : RegIx)
    (hstop : s.inputs.stopReq = true) (hwait : s.inputs.waitKey = a :: rest) :
    resolveWait x s = if Config.stopBeforeKey s.inputs.draws then waitStopped (s.setInputs s.inputs.drawn)
      else takeWaitAnswer x a rest (s.setInputs s.inputs.drawn) := by
  rw [resolveWait, hstop, hwait]
  rfl

/-- The event of one tick, appended: a Tone iff ST was nonzero (R122, R268). -/
theorem timerTick_trace_append (s : State) :
    s.timerTick.trace = s.trace ++ (if s.st = 0 then [] else [.tone]) := by
  rw [timerTick_trace]
  split
  · rw [List.append_nil]
  · rfl

/-- A tick neither reads nor writes the inputs (R122). -/
theorem timerTick_setInputs (s : State) (inp : Inputs) :
    (s.setInputs inp).timerTick = s.timerTick.setInputs inp := by
  obtain ⟨h, heq⟩ | ⟨h, heq⟩ := timerTick_cases s
  · rw [heq]
    exact if_pos h
  · rw [heq]
    exact if_neg h

/-- Acting on a wait's answer neither reads nor writes the inputs (R237, R238). -/
theorem waitAnswered_setInputs (x : RegIx) (a : WaitAnswer) (s : State) (inp : Inputs) :
    waitAnswered x a (s.setInputs inp) = (waitAnswered x a s).setInputs inp := by
  cases a with
  | key k => exact timerTick_setInputs ((s.setV x (BitVec.ofNat 8 k.val)).setKeyWait none) inp
  | noKey => rfl

/-- With only an answer pending, the step acts on it and takes it. -/
theorem step_of_answer {s : State} {x : RegIx} {a : WaitAnswer} {rest : List WaitAnswer} (hrun : s.run = .running)
    (hkey : s.keyWait = some x) (hstop : s.inputs.stopReq = false) (hwait : s.inputs.waitKey = a :: rest) :
    step s = .next ((waitAnswered x a s).setInputs { s.inputs with waitKey := rest }) := by
  rw [step_of_suspended hrun hkey, resolveWait, hstop, hwait]
  exact congrArg _ (waitAnswered_setInputs ..)

/-- A key is its own register value: it is at most 0xF (R265). -/
theorem toNat_getV_setV_key (s : State) (x r : RegIx) (k : Key) :
    ((s.setV x (BitVec.ofNat 8 k.val)).getV r).toNat = if r = x then k.val else (s.getV r).toNat :=
  toNat_getV_setV (Nat.mod_eq_of_lt (by omega)) s x r

/-- Settles O18: `V[x]` and KeyWait are written, the deferred tick does the rest, and the answer is taken
(`step_of_answer`). -/
theorem keyArrivalCompletesWait : Obligations.KeyArrivalCompletesWait := by
  unfold Obligations.KeyArrivalCompletesWait
  intro s x k rest hrun hkey hstop hwait
  refine ⟨_, step_of_answer hrun hkey hstop hwait, fun r => ?_, toNat_dt_iterate_timerTick _ 1,
    toNat_st_iterate_timerTick _ 1, timerTick_trace_append _, ?_⟩ <;> rw [waitAnswered]
  · rw [setInputs_getV, timerTick_getV, setKeyWait_getV, toNat_getV_setV_key]
  · apply State.ext <;> simp

/-- Settles O19: the pending answer is "no key". -/
theorem cancelledWaitStops : Obligations.CancelledWaitStops := by
  unfold Obligations.CancelledWaitStops
  intro s x rest hrun hkey hstop hwait
  rw [step_of_answer hrun hkey hstop hwait]
  rfl

/-- Settles O20: only the stop request is pending. -/
theorem stopRequestEndsWait : Obligations.StopRequestEndsWait := by
  unfold Obligations.StopRequestEndsWait
  intro s x hrun hkey hstop hwait
  rw [step_of_suspended hrun hkey, resolveWait_stop x hstop hwait]
  rfl

/-- Settles O21: with both pending, the answer is acted on as with no stop request, since acting on it does not read the
inputs (`waitAnswered_setInputs`). -/
theorem keyWaitResolutions : Obligations.KeyWaitResolutions := by
  unfold Obligations.KeyWaitResolutions
  refine fun s x hrun hkey => ⟨fun hstop hwait => ?_, fun a rest hstop hwait => ?_⟩
  · rw [step_of_suspended hrun hkey, resolveWait_unanswered x hstop hwait]
  · have hanswer (inp : Inputs) (hclear : inp.stopReq = false) (hpending : inp.waitKey = a :: rest) :
        step (s.setInputs inp) = .next ((waitAnswered x a s).setInputs { inp with waitKey := rest }) := by
      rw [step_of_answer (s := s.setInputs inp) hrun hkey hclear hpending, waitAnswered_setInputs]
      rfl
    refine ⟨_, hanswer _ rfl hwait, ?_⟩
    rw [step_of_suspended hrun hkey, resolveWait_both x hstop hwait]
    split
    · rfl
    · rw [takeWaitAnswer, waitAnswered_setInputs, waitAnswered_setInputs, Inputs.drawn, setInputs_inputs, hstop]
      rfl

/-- Settles O17: Execute writes KeyWait only, so the iteration ends suspended and unticked. -/
theorem waitForKeySuspends : Obligations.WaitForKeySuspends := by
  unfold Obligations.WaitForKeySuspends
  refine ⟨fun x s => rfl, fun x s hpass hfetch hdecode => ?_⟩
  rw [← decodeWord_readWord] at hdecode
  rw [step_eq_endIteration hpass hfetch hdecode rfl, endIteration_of_suspended (setKeyWait_keyWait _ _)]
  rfl

/-! The key instructions (R233 to R235). -/

theorem keyOperand_of_toNat_eq {b : Byte} {k : Key} (h : b.toNat = k.val) : keyOperand b = some k := by
  have hlt : b.toNat < 16 := by omega
  rw [keyOperand, dif_pos hlt]
  exact congrArg some (Fin.ext h)

theorem keyOperand_of_gt {b : Byte} (h : 0xF < b.toNat) : keyOperand b = none :=
  dif_neg (by omega)

theorem exec_skp_of_key {x : RegIx} {k : Key} {s : State} (h : (s.getV x).toNat = k.val) :
    exec (.skp x) s = .next ((s.drawKeyHeld k).2.skipIf (s.drawKeyHeld k).1) := by
  rw [exec, execSkp, keyOperand_of_toNat_eq h]

theorem exec_sknp_of_key {x : RegIx} {k : Key} {s : State} (h : (s.getV x).toNat = k.val) :
    exec (.sknp x) s = .next ((s.drawKeyHeld k).2.skipIf (!(s.drawKeyHeld k).1)) := by
  rw [exec, execSknp, keyOperand_of_toNat_eq h]

/-- `drawKeyHeld_cases` with an answer queued (R264). -/
theorem drawKeyHeld_of_cons {s : State} {b : Bool} {bs : List Bool} (k : Key) (h : s.inputs.keyHeld = b :: bs) :
    s.drawKeyHeld k = (b, s.setInputs { s.inputs with keyHeld := bs }) := by
  rw [State.drawKeyHeld, h]

/-- `drawKeyHeld_cases` with no answer queued (R264, R269). -/
theorem drawKeyHeld_of_nil {s : State} (k : Key) (h : s.inputs.keyHeld = []) :
    s.drawKeyHeld k = (Config.keyHeld s.inputs.draws k, s.setInputs s.inputs.drawn) := by
  rw [State.drawKeyHeld, h]

/-- SKNP skips where SKP does not: the negated condition exchanges the two next values of PC (R234, R235). -/
theorem skipIf_not (s : State) (c : Bool) : s.skipIf (!c) = s.setPc (if c then s.pc else s.pc + 2) := by
  cases c <;> rfl

/-- Settles O43: both forms ask once, the queue or the free value (`drawKeyHeld_of_cons`, `drawKeyHeld_of_nil`), and skip
on the two answers. -/
theorem keySkipsAskTheKey : Obligations.KeySkipsAskTheKey := by
  unfold Obligations.KeySkipsAskTheKey
  refine fun x k s hk => ⟨fun b rest hq => ?_, fun hq => ?_⟩
  · rw [exec_skp_of_key hk, exec_sknp_of_key hk, drawKeyHeld_of_cons k hq, skipIf_not]
    exact ⟨rfl, rfl⟩
  · rw [exec_skp_of_key hk, exec_sknp_of_key hk, drawKeyHeld_of_nil k hq, skipIf_not]
    exact ⟨rfl, rfl⟩

/-- Settles O44: a value above 0xF names no key, so nothing is asked (`keyOperand_of_gt`). -/
theorem keyNumberOutOfRangeFaults : Obligations.KeyNumberOutOfRangeFaults := by
  unfold Obligations.KeyNumberOutOfRangeFaults
  intro x s h
  rw [exec, exec, execSkp, execSknp, keyOperand_of_gt h]
  exact ⟨rfl, rfl⟩

/-! The timer registers (R230 to R232). -/

/-- Settles O42: each form writes one register, and the tick of its own iteration (`step_eq_timerTick`) counts the new
timer value down. -/
theorem timerRegisterMoves : Obligations.TimerRegisterMoves := by
  unfold Obligations.TimerRegisterMoves
  refine ⟨fun x s => ⟨⟨_, rfl, fun r => getV_setV s x r s.dt, rfl⟩, rfl, rfl⟩, fun x s hpass hfetch =>
    ⟨fun hdecode => ?_, fun hdecode => ?_, fun hdecode => ?_⟩⟩
  · refine ⟨_, step_eq_timerTick hpass hfetch hdecode rfl rfl rfl, ?_, toNat_dt_iterate_timerTick _ 1⟩
    rw [timerTick_getV, getV_setV_same, dt_atExecute]
  · exact ⟨_, step_eq_timerTick hpass hfetch hdecode rfl rfl rfl, toNat_dt_iterate_timerTick _ 1⟩
  · refine ⟨_, step_eq_timerTick hpass hfetch hdecode rfl rfl rfl, toNat_st_iterate_timerTick _ 1, ?_⟩
    rw [timerTick_trace_append, setSt_trace, setSt_st, trace_atExecute, getV_atExecute]

end Sys2Proof.Machine

/-! PROOFS. Exceptions: where a step can raise a fault and what state it leaves, and the statements of 60_exceptions.md about
the fetch fault, the decode failure and the precision of every fault. -/

namespace Sys2Proof.Machine

/-! The two forms of a faulted state: before the fetch, and with PC advanced (R250, R260). -/

theorem raise_afterLoopHead (s : State) (c : FaultCause) (a : Word) (raw : Option Word) :
    s.afterLoopHead.raise c a raw =
      { s with run := .stopped (.fault ⟨c, a, raw⟩), inputs := s.afterLoopHead.inputs } := by
  rw [afterLoopHead_eq]
  rfl

/-- During Execute the instruction's address is the PC it was fetched from (R24). -/
@[simp] theorem insnAddr_atExecute (s : State) : s.atExecute.insnAddr = s.pc :=
  BitVec.add_sub_cancel s.pc 2

theorem raise_atExecute (s : State) (c : FaultCause) (a : Word) (raw : Option Word) :
    s.atExecute.raise c a raw =
      { s with run := .stopped (.fault ⟨c, a, raw⟩), pc := s.pc + 2, inputs := s.afterLoopHead.inputs } :=
  rfl

/-! The fetch fault (R255) and the decode failure (R251). -/

/-- After a passed loop head the iteration goes on to the fetch (R110 to R113). -/
theorem step_eq_fetchDecodeExecute {s : State} (hpass : s.passesLoopHead = true) :
    step s = fetchDecodeExecute s.afterLoopHead := by
  obtain ⟨hrun, hkey, hlatch, hopen⟩ := (passesLoopHead_iff s).mp hpass
  have hhead : loopHead s = s.afterLoopHead := by
    obtain ⟨h, -⟩ | ⟨-, hatt, hclosed, -⟩ | ⟨-, -, h⟩ := loopHead_cases s
    · simp [hlatch] at h
    · simp [hatt, hclosed] at hopen
    · exact h
  have hrunning : s.afterLoopHead.run = .running := by rw [afterLoopHead_eq]; exact hrun
  simp only [step, hrun, hkey, iteration, hhead, hrunning]

/-- `fetch_cases` where the second byte at PC is past memory (R255). -/
theorem fetch_of_past_memory {s : State} (hlow : s.pc.toNat < s.progEnd) (hhigh : 0xFFF < s.pc.toNat + 1) :
    fetch s = (none, s.raise (.fetchRange s.pc) s.pc none) := by
  rw [fetch, if_neg (by omega), if_pos hhigh]

/-- Settles O11: at PC = 0xFFF below ProgEnd = 0x1000 the fetch itself faults (`fetch_of_past_memory`). -/
theorem fetchPastMemoryFaults : Obligations.FetchPastMemoryFaults := by
  unfold Obligations.FetchPastMemoryFaults
  intro s hpass hpc hend
  have hpc' : s.afterLoopHead.pc = 0xFFF#16 := by rw [afterLoopHead_eq]; exact hpc
  have hend' : s.afterLoopHead.progEnd = 0x1000 := by rw [afterLoopHead_eq]; exact hend
  have hfetch := fetch_of_past_memory (s := s.afterLoopHead) (by simp [hpc', hend']) (by simp [hpc'])
  rw [step_eq_fetchDecodeExecute hpass, fetchDecodeExecute, hfetch, hpc']
  exact congrArg _ (raise_afterLoopHead ..)

/-- Every instruction's row is in the opcode table (R86). -/
theorem row_mem_opcodeTable (i : Instr) : i.row ∈ opcodeTable := by
  cases i <;> simp [opcodeTable, Instr.row]

/-- A word that matches no row of the opcode table does not decode (R86, R88). -/
theorem decodeWord_eq_error_of_no_row {w : Word} (h : ∀ r ∈ opcodeTable, w &&& r.mask ≠ r.value) :
    ∃ e, decodeWord w = .error e := by
  cases hdecode : decodeWord w with
  | error e => exact ⟨e, rfl⟩
  | ok i => exact absurd ((and_mask_row_iff w i).mpr ⟨i, hdecode, rfl⟩) (h i.row (row_mem_opcodeTable i))

/-- Settles O12: the word does not decode (`decodeWord_eq_error_of_no_row`), so the step is the DecodeError that
`decodeExecute` raises with PC advanced. -/
theorem decodeFailureFaults : Obligations.DecodeFailureFaults := by
  unfold Obligations.DecodeFailureFaults
  intro s hpass hfetch hrow
  obtain ⟨e, hdecode⟩ := decodeWord_eq_error_of_no_row hrow
  rw [step_eq_decodeExecute hpass hfetch, decodeExecute, hdecode, insnAddr_atExecute]
  exact congrArg _ (raise_atExecute ..)

/-! Every step that ends in a fault (R260). -/

/-- The end of an iteration does not change Run: a tick leaves it as it is (R122). -/
@[simp] theorem run_endIteration (s : State) : (endIteration s).run = s.run := by
  obtain ⟨-, -, h⟩ | ⟨-, h⟩ := endIteration_cases s
  · rw [h, timerTick_run]
  · rw [h]

theorem endIteration_of_not_running {s : State} (h : s.run ≠ .running) : endIteration s = s := by
  obtain ⟨hrun, -, -⟩ | ⟨-, heq⟩ := endIteration_cases s
  · exact absurd hrun h
  · exact heq

/-- A key wait ends in no fault: it stays Running or takes a normal stop (R237 to R240). -/
theorem run_resolveWait_ne_fault {s : State} (x : RegIx) (rec : FaultRecord) (hrun : s.run = .running) :
    (resolveWait x s).run ≠ .stopped (.fault rec) := by
  obtain ⟨-, -, h⟩ | ⟨_, -, h⟩ | ⟨a, _, _, -, h⟩ := resolveWait_cases x s
  · simp [h, hrun]
  · simp [h, waitStopped]
  · cases a <;> simp [h, waitAnswered, hrun]

/-- Decode and Execute fault only before any write: the state is the one they began in, with the record of the word's
DecodeError or of the instruction's own bounds fault (R251 to R256). -/
theorem decodeExecute_of_fault {w : Word} {s t : State} {rec : FaultRecord} (hrun : s.run = .running)
    (h : decodeExecute w s = .next t) (hfault : t.run = .stopped (.fault rec)) :
    ∃ c, (∀ p, c ≠ .fetchRange p) ∧ t = s.raise c s.insnAddr (some w) := by
  obtain ⟨_, -, heq⟩ | ⟨i, u, hdecode, hexec, heq⟩ := decodeExecute_cases w s
  · exact ⟨.decodeError w, by simp, Host.Outcome.next.inj (h.symm.trans heq)⟩
  · obtain rfl := Host.Outcome.next.inj (h.symm.trans heq)
    obtain ⟨c, hc, -, hraise⟩ | ⟨v, hv, hcompletes⟩ := exec_cases i s
    · obtain rfl := Host.Outcome.next.inj (hexec.symm.trans hraise)
      refine ⟨c, hc, ?_⟩
      rw [endIteration_of_not_running (by simp), State.raiseFrom, encode_of_decodeWord hdecode]
    · obtain rfl := Host.Outcome.next.inj (hexec.symm.trans hv)
      rw [run_endIteration, hcompletes.run, hrun] at hfault
      cases hfault

/-- The two places where a step raises a fault: the fetch, and Decode or Execute with PC advanced. -/
theorem step_of_fault {s t : State} {rec : FaultRecord} (h : step s = .next t)
    (hfault : t.run = .stopped (.fault rec)) :
    t = s.afterLoopHead.raise (.fetchRange s.pc) s.pc none ∨
    ∃ c, (∀ p, c ≠ .fetchRange p) ∧ t = s.atExecute.raise c s.pc (some (s.mem.readWord s.pc.toNat)) := by
  obtain ⟨_, -, e⟩ | ⟨x, hrun, -, e⟩ | ⟨-, -, -, e⟩ | ⟨-, -, -, -, -, e⟩ | ⟨-, -, e⟩ | ⟨-, -, -, e⟩ | ⟨hpass, -, e⟩ :=
    step_cases s
  all_goals rw [e] at h
  · cases h
  · cases h; exact absurd hfault (run_resolveWait_ne_fault x rec hrun)
  · cases h; cases hfault
  · cases h; cases hfault
  · cases h; cases hfault
  · cases h; exact .inl rfl
  · rw [setPc_afterLoopHead_eq_atExecute] at h
    obtain ⟨hrun, -⟩ := (passesLoopHead_iff s).mp hpass
    obtain ⟨c, hc, rfl⟩ := decodeExecute_of_fault (s := s.atExecute) hrun h hfault
    exact .inr ⟨c, hc, by rw [insnAddr_atExecute]⟩

/-- Settles O16: a fault is raised by the fetch or with PC advanced (`step_of_fault`), and the record is the one raised. -/
theorem faultsArePrecise : Obligations.FaultsArePrecise := by
  unfold Obligations.FaultsArePrecise
  intro s t rec h hfault
  obtain rfl | ⟨c, hc, rfl⟩ := step_of_fault h hfault <;> cases hfault
  · exact ⟨rfl, .inl ⟨⟨s.pc, rfl⟩, rfl, raise_afterLoopHead ..⟩⟩
  · exact ⟨rfl, .inr ⟨hc, rfl, raise_atExecute ..⟩⟩

end Sys2Proof.Machine

/-! PROOFS. Construction: what the memory it builds reads as at every address, when it answers a machine, and the statement of
70_reset_and_hazards.md about the machine it answers. -/

namespace Sys2Proof.Machine

/-! The memory that construction builds (R280). -/

/-- Past the 80 bytes of the font an unlisted address reads as 0 (R40). -/
theorem initial_of_le {a : Nat} (h : 80 ≤ a) : Memory.initial a = 0 :=
  List.getD_eq_default (fontLow ++ fontHigh) 0 h

/-- Memory after the font is loaded, before the ROM (R280). -/
def fontMemory (font : Vector Byte 80) : Memory := Memory.writeBlock [] Config.fontBase font.toList

/-- Memory after the font and the ROM are loaded (R280). -/
def constructedMemory (rom : List Byte) (font : Vector Byte 80) : Memory :=
  (fontMemory font).writeBlock Config.progStart rom

theorem font_below_memSize (font : Vector Byte 80) : Config.fontBase + font.toList.length ≤ Config.memSize := by
  rw [Vector.length_toList]
  decide

theorem rom_below_memSize {rom : List Byte} (hrom : rom.length ≤ 3584) :
    Config.progStart + rom.length ≤ Config.memSize := by
  rw [Config.progStart, Config.memSize]
  omega

theorem wf_fontMemory (font : Vector Byte 80) : (fontMemory font).wf = true :=
  wf_writeBlock rfl (font_below_memSize font)

/-- A font glyph byte below 80, 0 from there on: what is unlisted past the font is 0, and so is the default of `getD`. -/
theorem read_fontMemory (font : Vector Byte 80) (a : Nat) : (fontMemory font).read a = font.toList.getD a 0 := by
  rw [fontMemory, read_writeBlock rfl (font_below_memSize font), Vector.length_toList, Config.fontBase]
  by_cases ha : a < 80
  · rw [if_pos (by omega), Nat.sub_zero]
  · rw [if_neg (by omega), read_nil, initial_of_le (by omega), List.getD_eq_default _ _ (by simpa using ha)]

/-- The ROM where it was copied, the font and zeros everywhere else. -/
theorem read_constructedMemory {rom : List Byte} (hrom : rom.length ≤ 3584) (font : Vector Byte 80) (a : Nat) :
    (constructedMemory rom font).read a =
      if 0x200 ≤ a ∧ a < 0x200 + rom.length then rom.getD (a - 0x200) 0 else font.toList.getD a 0 := by
  rw [constructedMemory, read_writeBlock (wf_fontMemory font) (rom_below_memSize hrom), read_fontMemory,
    Config.progStart]

theorem read_constructedMemory_font {rom : List Byte} (hrom : rom.length ≤ 3584) (font : Vector Byte 80) (k : Fin 80) :
    (constructedMemory rom font).read k.val = font[k] := by
  rw [read_constructedMemory hrom, if_neg (by omega), List.getD_eq_getElem _ _ (by simp)]
  rfl

theorem read_constructedMemory_rom {rom : List Byte} (hrom : rom.length ≤ 3584) (font : Vector Byte 80) {k : Nat}
    (hk : k < rom.length) : (constructedMemory rom font).read (0x200 + k) = rom.getD k 0 := by
  rw [read_constructedMemory hrom, if_pos (by omega), Nat.add_sub_cancel_left]

/-- Every address past the font and outside the ROM reads 0 ("memory zeroed"). -/
theorem read_constructedMemory_zero {rom : List Byte} (hrom : rom.length ≤ 3584) (font : Vector Byte 80) {a : Nat}
    (hfont : 80 ≤ a) (hout : a < 0x200 ∨ 0x200 + rom.length ≤ a) : (constructedMemory rom font).read a = 0 := by
  rw [read_constructedMemory hrom, if_neg (by omega), List.getD_eq_default _ _ (by simpa using hfont)]

/-! When construction answers a machine (R280, R281). -/

theorem romFits_iff (rom : List Byte) : romFits rom = true ↔ rom.length ≤ 3584 := by
  rw [romFits, decide_eq_true_eq, Config.maxRom]

theorem construct_of_fits {rom : List Byte} (h : rom.length ≤ 3584) (font : Vector Byte 80) (attached : Bool) :
    State.construct (some rom) font attached =
      .ok { State.reset with
        mem := constructedMemory rom font
        progEnd := Config.progStart + rom.length
        displayAttached := attached } :=
  if_pos ((romFits_iff rom).mpr h)

theorem construct_of_too_large {rom : List Byte} (h : 3584 < rom.length) (font : Vector Byte 80) (attached : Bool) :
    State.construct (some rom) font attached = .error .tooLarge :=
  if_neg (mt (romFits_iff rom).mp (Nat.not_le.mpr h))

/-! The registers and the stack of the reset state (R40). -/

@[simp] theorem getV_reset (r : RegIx) : State.reset.getV r = 0 := Vector.getElem_replicate r.isLt

theorem stack_reset (k : Fin 16) : State.reset.stack[k] = 0 := Vector.getElem_replicate k.isLt

/-- Settles O51: memory address by address (`read_constructedMemory`), every other field but the parameters as in the reset
state. -/
theorem constructionBuildsTheResetState : Obligations.ConstructionBuildsTheResetState := by
  unfold Obligations.ConstructionBuildsTheResetState
  refine ⟨fun rom font attached hrom => ⟨_, construct_of_fits hrom font attached,
    read_constructedMemory_font hrom font, ?belowProgram, fun _ => read_constructedMemory_rom hrom font, ?aboveProgram,
    rfl, rfl, rfl, getV_reset, rfl, stack_reset, rfl, rfl, rfl, pixel_clearFb, rfl, rfl, rfl⟩,
    fun _ font attached hrom => construct_of_too_large hrom font attached, fun _ _ => rfl⟩
  case belowProgram => exact fun a hlow hhigh => read_constructedMemory_zero hrom font hlow (.inl hhigh)
  case aboveProgram => exact fun a ha => read_constructedMemory_zero hrom font (by omega) (.inr ha)

end Sys2Proof.Machine

/-! PROOFS. The decoder and the encoder are inverse to each other on words and well-formed instructions, the words that name
no instruction, and the statements of 30_encoding.md about both. -/

namespace Sys2Proof

/-! The decoder undoes the encoder (R82, R83, R86). -/

/-- The word of a draw keeps the low four bits of the count: the field n (R82). -/
theorem decodeWord_encode_drw (x y : RegIx) (n : Nat) :
    decodeWord (encode (.drw x y n)) = .ok (.drw x y (n % 16)) := by
  simp [encode, decodeWord_encodeFR, decode]

/-- Decoding the word of an instruction dispatches on the format's fields, which are the operands (R83, R84, R85). -/
theorem decodeWord_encode {i : Instr} (hwf : i.wf = true) : decodeWord (encode i) = .ok i := by
  cases i
  case cls | ret => rfl
  case drw x y n =>
    have hn : n ≤ 15 := of_decide_eq_true hwf
    rw [decodeWord_encode_drw, Nat.mod_eq_of_lt (by omega)]
  case jp nnn | call nnn | ldI nnn | jpV0 nnn =>
    obtain ⟨n2, low, rfl⟩ := exists_addrOf nnn
    simp [encode, decodeWord_encodeFA, decode]
  case seImm | sneImm | ldImm | addImm | rnd => simp [encode, decodeWord_encodeFI, decode]
  case seReg | sneReg => simp [encode, decodeWord_encodeFR, decode]
  case ldReg | orReg | andReg | xorReg | addReg | sub | shr | subn | shl =>
    simp [encode, decodeWord_encodeFR, decode, decodeFamily8]
  case skp | sknp => simp [encode, decodeWord_encodeFI, decode, decodeFamilyE]
  all_goals simp [encode, decodeWord_encodeFI, decode, decodeFamilyF]

/-- Settles O1: `decodeWord_encode`. -/
theorem decodeInvertsEncode : Obligations.DecodeInvertsEncode := by
  unfold Obligations.DecodeInvertsEncode
  exact fun i hwf => decodeWord_encode hwf

/-- A decoded instruction is well-formed: the count of a draw is what its own word decodes to, a number below 16 (R91). -/
theorem wf_of_decodeWord {w : Word} {i : Instr} (h : decodeWord w = .ok i) : i.wf = true := by
  cases i
  case drw x y n =>
    have hagain := decodeWord_encode_drw x y n
    rw [encode_of_decodeWord h, h] at hagain
    obtain hn : n = n % 16 := by simpa using hagain
    exact decide_eq_true (show n ≤ 15 by omega)
  all_goals rfl

/-- Settles O2: `wf_of_decodeWord` and `encode_of_decodeWord`. -/
theorem encodeInvertsDecode : Obligations.EncodeInvertsDecode := by
  unfold Obligations.EncodeInvertsDecode
  exact fun w i h => ⟨wf_of_decodeWord h, encode_of_decodeWord h⟩

/-! The words that name no instruction: each second-level dispatch refuses under its own name (R85, R88). -/

theorem decodeFamily0_eq_error_iff (n2 : BitVec 4) (low : Byte) (e : IllegalWord) :
    decodeFamily0 n2 low = .error e ↔
      e = .family0 ∧ ¬ (n2 = 0x0#4 ∧ low = 0xE0#8) ∧ ¬ (n2 = 0x0#4 ∧ low = 0xEE#8) := by
  unfold decodeFamily0
  split
  · next hcls => simp [hcls]
  · split
    · next hret => simp [hret]
    · next hcls hret => simp only [Except.error.injEq, hcls, hret, not_false_eq_true, and_self, and_true, eq_comm]

theorem decodeFamily8_eq_error_iff (x y : RegIx) (f : BitVec 4) (e : IllegalWord) :
    decodeFamily8 x y f = .error e ↔ e = .family8 ∧ f.toNat ∈ [0x8, 0x9, 0xA, 0xB, 0xC, 0xD, 0xF] := by
  unfold decodeFamily8
  split
  case h_10 =>
    have hf : f.toNat ∈ [0x8, 0x9, 0xA, 0xB, 0xC, 0xD, 0xF] := by revert f; decide
    simp only [Except.error.injEq, hf, and_true, eq_comm]
  all_goals simp

theorem decodeFamilyE_eq_error_iff (x : RegIx) (low : Byte) (e : IllegalWord) :
    decodeFamilyE x low = .error e ↔ e = .familyE ∧ low.toNat ∉ [0x9E, 0xA1] := by
  unfold decodeFamilyE
  split
  case h_3 =>
    have hlow : low.toNat ∉ [0x9E, 0xA1] := by revert low; decide
    simp only [Except.error.injEq, hlow, not_false_eq_true, and_true, eq_comm]
  all_goals simp

theorem decodeFamilyF_eq_error_iff (x : RegIx) (low : Byte) (e : IllegalWord) :
    decodeFamilyF x low = .error e ↔
      e = .familyF ∧ low.toNat ∉ [0x07, 0x0A, 0x15, 0x18, 0x1E, 0x29, 0x33, 0x55, 0x65] := by
  unfold decodeFamilyF
  split
  case h_10 =>
    have hlow : low.toNat ∉ [0x07, 0x0A, 0x15, 0x18, 0x1E, 0x29, 0x33, 0x55, 0x65] := by revert low; decide
    simp only [Except.error.injEq, hlow, not_false_eq_true, and_true, eq_comm]
  all_goals simp

theorem toNat_lowNibble_highByte (w : Word) : (lowNibble (highByte w)).toNat = w.toNat / 256 % 16 := by
  simp only [lowNibble, highByte, BitVec.extractLsb'_toNat, Nat.shiftRight_eq_div_pow]
  omega

theorem toNat_lowByte (w : Word) : (lowByte w).toNat = w.toNat % 256 := by
  simp only [lowByte, BitVec.extractLsb'_toNat, Nat.shiftRight_zero]

/-- The two words of family 0 by their fields (R85). -/
theorem family0_fields_iff {w : Word} (hop : w.toNat / 0x1000 = 0x0) (low : Byte) :
    lowNibble (highByte w) = 0x0#4 ∧ lowByte w = low ↔ w = low.setWidth 16 := by
  simp only [← BitVec.toNat_inj, toNat_lowNibble_highByte, toNat_lowByte, BitVec.toNat_setWidth]
  simp only [BitVec.toNat_ofNat]
  omega

/-- The set of words that `e` names, as the table of 30_encoding.md R88 writes it. -/
def IllegalWord.Holds (e : IllegalWord) (w : Word) : Prop :=
  match e with
  | .family0 => w.toNat / 0x1000 = 0x0 ∧ w ≠ 0x00E0#16 ∧ w ≠ 0x00EE#16
  | .family5 => w.toNat / 0x1000 = 0x5 ∧ w.toNat % 16 ≠ 0
  | .family9 => w.toNat / 0x1000 = 0x9 ∧ w.toNat % 16 ≠ 0
  | .family8 => w.toNat / 0x1000 = 0x8 ∧ w.toNat % 16 ∈ [0x8, 0x9, 0xA, 0xB, 0xC, 0xD, 0xF]
  | .familyE => w.toNat / 0x1000 = 0xE ∧ w.toNat % 256 ∉ [0x9E, 0xA1]
  | .familyF => w.toNat / 0x1000 = 0xF ∧ w.toNat % 256 ∉ [0x07, 0x0A, 0x15, 0x18, 0x1E, 0x29, 0x33, 0x55, 0x65]

/-- A word is refused under the name of the one set it lies in: by its first nibble, then by the second level (R84, R88). -/
theorem decodeWord_eq_error_iff (w : Word) (e : IllegalWord) : decodeWord w = .error e ↔ e.Holds w := by
  have hop : ∀ {op : BitVec 4}, highNibble (highByte w) = op → w.toNat / 0x1000 = op.toNat :=
    fun h => by rw [← toNat_highNibble_highByte, h]
  have hlast : lowNibble (lowByte w) = 0x0#4 ↔ w.toNat % 16 = 0 := by
    rw [← BitVec.toNat_inj, toNat_lowNibble_lowByte]; rfl
  simp only [decodeWord, decode]
  split
  case h_1 h =>
    rw [decodeFamily0_eq_error_iff, family0_fields_iff (hop h), family0_fields_iff (hop h)]
    cases e <;> simp [IllegalWord.Holds, hop h]
  case h_6 h | h_10 h =>
    split
    · next hz => cases e <;> simp [IllegalWord.Holds, hop h, hlast.mp hz]
    · next hz => cases e <;> simp [IllegalWord.Holds, hop h, mt hlast.mpr hz]
  case h_9 h =>
    rw [decodeFamily8_eq_error_iff, toNat_lowNibble_lowByte]
    cases e <;> simp [IllegalWord.Holds, hop h]
  case h_15 h =>
    rw [decodeFamilyE_eq_error_iff, toNat_lowByte]
    cases e <;> simp [IllegalWord.Holds, hop h]
  case h_16 =>
    have h : highNibble (highByte w) = 0xF#4 := by
      clear hop
      generalize highNibble (highByte w) = op at *
      revert op; decide
    rw [decodeFamilyF_eq_error_iff, toNat_lowByte]
    cases e <;> simp [IllegalWord.Holds, hop h]
  all_goals
    next h => cases e <;> simp [IllegalWord.Holds, hop h]

/-- Settles O4: `decodeWord_eq_error_iff` for each of the six sets. -/
theorem illegalWordsAreTheSixSets : Obligations.IllegalWordsAreTheSixSets := by
  unfold Obligations.IllegalWordsAreTheSixSets
  exact fun w => ⟨decodeWord_eq_error_iff w .family0, decodeWord_eq_error_iff w .family5,
    decodeWord_eq_error_iff w .family9, decodeWord_eq_error_iff w .family8, decodeWord_eq_error_iff w .familyE,
    decodeWord_eq_error_iff w .familyF⟩

/-- Settles O5: 27 closed words, evaluated. -/
theorem sampleWordsDecode : Obligations.SampleWordsDecode := by
  unfold Obligations.SampleWordsDecode
  decide

/-- A word's number from its bytes, high byte first (R51). -/
theorem toNat_wordOf (high low : Byte) : (wordOf high low).toNat = high.toNat * 256 + low.toNat := by
  rw [wordOf, BitVec.toNat_append, ← Nat.shiftLeft_add_eq_or_of_lt low.isLt, Nat.shiftLeft_eq]

end Sys2Proof

namespace Sys2Proof.Machine

/-- Settles O6: `toNat_wordOf` and `decodeWord_readWord`. -/
theorem fetchedWordIsBigEndian : Obligations.FetchedWordIsBigEndian := by
  unfold Obligations.FetchedWordIsBigEndian
  exact fun m a => ⟨toNat_wordOf (m.read a) (m.read (a + 1)), decodeWord_readWord m a⟩

end Sys2Proof.Machine

/-! PROOFS. Every step: what a step that answers a state can do, said once; what no step changes; when a step runs no tick and
which events it emits; and the statements of 10_state.md, 40_cycle.md and 60_exceptions.md about each. -/

namespace Sys2Proof.Machine

/-! The display's query (R263): `drawIsOpen_cases` by what is queued, and what it leaves in the inputs. -/

theorem drawIsOpen_of_cons {s : State} {b : Bool} {bs : List Bool} (h : s.inputs.isOpen = b :: bs) :
    s.drawIsOpen = (b, s.setInputs { s.inputs with isOpen := bs }) := by
  rw [State.drawIsOpen, h]

theorem drawIsOpen_of_nil {s : State} (h : s.inputs.isOpen = []) :
    s.drawIsOpen = (Config.isOpen s.inputs.draws, s.setInputs s.inputs.drawn) := by
  rw [State.drawIsOpen, h]

@[simp] theorem stopReq_drawIsOpen (s : State) : s.drawIsOpen.2.inputs.stopReq = s.inputs.stopReq := by
  obtain ⟨_, _, -, h⟩ | ⟨-, h⟩ := drawIsOpen_cases s <;> rw [h] <;> rfl

theorem stopReq_afterLoopHead (s : State) : s.afterLoopHead.inputs.stopReq = s.inputs.stopReq := by
  unfold State.afterLoopHead
  split
  · exact stopReq_drawIsOpen s
  · rfl

theorem afterLoopHead_of_detached {s : State} (h : s.displayAttached = false) : s.afterLoopHead = s := by
  simp [State.afterLoopHead, h]

theorem afterLoopHead_of_attached {s : State} (h : s.displayAttached = true) : s.afterLoopHead = s.drawIsOpen.2 :=
  if_pos h

/-! The end of an iteration writes DT, ST and the trace only. -/

/-- A tick appends at most one Tone (R122). -/
theorem exists_toned_timerTick (s : State) :
    ∃ toned : Bool, s.timerTick.trace = s.trace ++ (if toned then [.tone] else []) := by
  refine ⟨decide (s.st ≠ 0), ?_⟩
  rw [timerTick_trace_append]
  by_cases hst : s.st = 0
  · rw [if_pos hst, if_neg (by simp [hst])]
  · rw [if_neg hst, if_pos (decide_eq_true hst)]

theorem exists_toned_endIteration (s : State) :
    ∃ toned : Bool, (endIteration s).trace = s.trace ++ (if toned then [.tone] else []) := by
  obtain ⟨-, -, h⟩ | ⟨-, h⟩ := endIteration_cases s <;> rw [h]
  · exact exists_toned_timerTick s
  · exact ⟨false, by simp⟩

@[simp] theorem fb_endIteration (s : State) : (endIteration s).fb = s.fb := by
  obtain ⟨-, -, h⟩ | ⟨-, h⟩ := endIteration_cases s <;> simp [h]

@[simp] theorem progEnd_endIteration (s : State) : (endIteration s).progEnd = s.progEnd := by
  obtain ⟨-, -, h⟩ | ⟨-, h⟩ := endIteration_cases s <;> simp [h]

@[simp] theorem displayAttached_endIteration (s : State) : (endIteration s).displayAttached = s.displayAttached := by
  obtain ⟨-, -, h⟩ | ⟨-, h⟩ := endIteration_cases s <;> simp [h]

@[simp] theorem inputs_endIteration (s : State) : (endIteration s).inputs = s.inputs := by
  obtain ⟨-, -, h⟩ | ⟨-, h⟩ := endIteration_cases s <;> simp [h]

/-! What a step can do. -/

/-- An iteration that stops the run before any instruction takes effect: at the loop head, at the fetch, on a word that names
no instruction, or by a bounds fault (R111 to R115, R260). It writes Run, PC and the inputs only. -/
structure StopsRun (s t : State) : Prop where
  awake : s.keyWait = none
  frame : t = { s with run := t.run, pc := t.pc, inputs := t.inputs }
  run : t.run ≠ .running
  pc : t.pc = s.pc ∨ s.canFetch = true ∧ t.pc = s.pc + 2
  stopReq : t.inputs.stopReq = s.inputs.stopReq
  isOpen : s.displayAttached = false → t.inputs.isOpen = s.inputs.isOpen

/-- A stop at the fetch or on Execute's side of it: the loop head has passed and PC is advanced or not. -/
theorem stopsRun_afterLoopHead {s : State} (reason : StopReason) {pc : Word} (hkey : s.keyWait = none)
    (hpc : pc = s.pc ∨ s.canFetch = true ∧ pc = s.pc + 2) :
    StopsRun s { s with run := .stopped reason, pc := pc, inputs := s.afterLoopHead.inputs } where
  awake := hkey
  frame := rfl
  run := by simp
  pc := hpc
  stopReq := stopReq_afterLoopHead s
  isOpen h := by rw [afterLoopHead_of_detached h]

/-- `step_cases` for a step that answers a state: the key wait, an iteration that stops the run, or an instruction that
completes or suspends. -/
theorem step_next_cases {s t : State} (h : step s = .next t) :
    (∃ x, s.run = .running ∧ s.keyWait = some x ∧ t = resolveWait x s) ∨
    StopsRun s t ∨
    (s.run = .running ∧ s.keyWait = none ∧ s.canFetch = true ∧
      ∃ i u, exec i s.atExecute = .next u ∧ Completes i s.atExecute u ∧ t = endIteration u) := by
  obtain ⟨_, -, e⟩ | ⟨x, hrun, hkey, e⟩ | ⟨-, hkey, -, e⟩ | ⟨-, hkey, -, hatt, -, e⟩ | ⟨hpass, -, e⟩ |
    ⟨hpass, -, -, e⟩ | ⟨hpass, hfetch, e⟩ := step_cases s
  all_goals rw [e] at h
  · cases h
  · cases h
    exact .inl ⟨x, hrun, hkey, rfl⟩
  · cases h
    exact .inr (.inl ⟨hkey, rfl, by simp, .inl rfl, rfl, fun _ => rfl⟩)
  · cases h
    rw [← afterLoopHead_of_attached hatt, afterLoopHead_eq]
    exact .inr (.inl (stopsRun_afterLoopHead _ hkey (.inl rfl)))
  · obtain ⟨-, hkey, -⟩ := (passesLoopHead_iff s).mp hpass
    cases h
    rw [afterLoopHead_eq]
    exact .inr (.inl (stopsRun_afterLoopHead _ hkey (.inl rfl)))
  · obtain ⟨-, hkey, -⟩ := (passesLoopHead_iff s).mp hpass
    cases h
    rw [raise_afterLoopHead]
    exact .inr (.inl (stopsRun_afterLoopHead _ hkey (.inl rfl)))
  · obtain ⟨hrun, hkey, -⟩ := (passesLoopHead_iff s).mp hpass
    rw [setPc_afterLoopHead_eq_atExecute] at h
    have hfault (c : FaultCause) (a : Word) (raw : Option Word) : StopsRun s (s.atExecute.raise c a raw) :=
      stopsRun_afterLoopHead _ hkey (.inr ⟨hfetch, rfl⟩)
    obtain ⟨_, -, e⟩ | ⟨i, u, -, hexec, e⟩ := decodeExecute_cases (s.mem.readWord s.pc.toNat) s.atExecute
    all_goals rw [e] at h; cases h
    · exact .inr (.inl (hfault ..))
    · obtain ⟨c, -, -, hraise⟩ | ⟨v, hv, hcompletes⟩ := exec_cases i s.atExecute
      · obtain rfl := Host.Outcome.next.inj (hexec.symm.trans hraise)
        rw [endIteration_of_not_running (by simp)]
        exact .inr (.inl (hfault ..))
      · obtain rfl := Host.Outcome.next.inj (hexec.symm.trans hv)
        exact .inr (.inr ⟨hrun, hkey, hfetch, i, u, hexec, hcompletes, rfl⟩)

/-! What no step changes. -/

/-- What a step leaves as it is: the construction parameters (R33, D37), the stop latch (R266), and, with no display
attached, the answers queued for the display (R112). -/
structure StepKeeps (s t : State) : Prop where
  progEnd : t.progEnd = s.progEnd
  displayAttached : t.displayAttached = s.displayAttached
  stopReq : t.inputs.stopReq = s.inputs.stopReq
  isOpen : s.displayAttached = false → t.inputs.isOpen = s.inputs.isOpen

/-- A key wait takes at most its own answer and a draw from the inputs (R237 to R240). -/
theorem stepKeeps_resolveWait (x : RegIx) (s : State) : StepKeeps s (resolveWait x s) := by
  have hanswer (a : WaitAnswer) (u : State) (hu : StepKeeps s u) : StepKeeps s (waitAnswered x a u) := by
    obtain ⟨hend, hatt, hstop, hopen⟩ := hu
    cases a <;> constructor <;> simpa [waitAnswered]
  unfold resolveWait
  split
  · exact ⟨rfl, rfl, rfl, fun _ => rfl⟩
  · exact ⟨rfl, rfl, rfl, fun _ => rfl⟩
  · exact hanswer _ _ ⟨rfl, rfl, rfl, fun _ => rfl⟩
  · split
    · exact ⟨rfl, rfl, rfl, fun _ => rfl⟩
    · exact hanswer _ _ ⟨rfl, rfl, rfl, fun _ => rfl⟩

theorem StopsRun.stepKeeps {s t : State} (h : StopsRun s t) : StepKeeps s t :=
  ⟨by rw [h.frame], by rw [h.frame], h.stopReq, h.isOpen⟩

/-- The loop head and Execute together (`Completes`), then a tick that does not read the inputs. -/
theorem Completes.stepKeeps_endIteration {i : Instr} {s u : State} (h : Completes i s.atExecute u) :
    StepKeeps s (endIteration u) where
  progEnd := (progEnd_endIteration u).trans h.progEnd
  displayAttached := (displayAttached_endIteration u).trans h.displayAttached
  stopReq := by rw [inputs_endIteration, h.stopReq]; exact stopReq_afterLoopHead s
  isOpen hdetached := by
    rw [inputs_endIteration, h.isOpen, State.atExecute, afterLoopHead_of_detached hdetached]

theorem step_keeps {s t : State} (h : step s = .next t) : StepKeeps s t := by
  obtain ⟨x, -, -, rfl⟩ | hstops | ⟨-, -, -, _, _, -, hcompletes, rfl⟩ := step_next_cases h
  · exact stepKeeps_resolveWait x s
  · exact hstops.stepKeeps
  · exact hcompletes.stepKeeps_endIteration

/-- Settles O50: `step_keeps`; the host writes inputs only. -/
theorem constructionParametersNeverChange : Obligations.ConstructionParametersNeverChange := by
  unfold Obligations.ConstructionParametersNeverChange
  exact ⟨fun s t h => ⟨(step_keeps h).progEnd, (step_keeps h).displayAttached⟩, fun _ _ => ⟨rfl, rfl⟩⟩

/-- Settles O53: no host action clears the latch, and `step_keeps`. -/
theorem hostActsOnlyOnInputs : Obligations.HostActsOnlyOnInputs := by
  unfold Obligations.HostActsOnlyOnInputs
  refine ⟨fun a s => ⟨rfl, fun hset => ?_⟩, fun _ => rfl, fun s t h => (step_keeps h).stopReq⟩
  cases a with
  | requestStop => rfl
  | answerIsOpen | answerKeyHeld | answerWait | answerRandByte => exact hset

/-! The timers and the trace (R118, R122, R190). -/

/-- An instruction leaves a machine suspended only if it is Fx0A, which writes KeyWait alone (R36, R236). -/
theorem Completes.eq_setKeyWait {i : Instr} {s u : State} (h : Completes i s u) (hexec : exec i s = .next u)
    (hawake : s.keyWait = none) (hsuspended : u.keyWait ≠ none) : ∃ x, u = s.setKeyWait (some x) := by
  obtain hsame | ⟨x, rfl, -⟩ := h.keyWait
  · exact absurd (hsame.trans hawake) hsuspended
  · exact ⟨x, (Host.Outcome.next.inj hexec).symm⟩

/-- Settles O14: a key wait that completes leaves the machine Running and awake, an iteration that stops writes no timer, and
one that completes is ticked unless it suspends (`Completes.eq_setKeyWait`). -/
theorem earlyEndRunsNoTick : Obligations.EarlyEndRunsNoTick := by
  unfold Obligations.EarlyEndRunsNoTick
  intro s t h hearly
  obtain ⟨x, hrun, -, rfl⟩ | hstops | ⟨hrun, hkey, -, i, u, hexec, hcompletes, rfl⟩ := step_next_cases h
  · obtain ⟨-, -, e⟩ | ⟨_, -, e⟩ | ⟨a, _, _, -, e⟩ := resolveWait_cases x s
    all_goals rw [e] at hearly ⊢
    · exact ⟨rfl, rfl, rfl⟩
    · exact ⟨rfl, rfl, rfl⟩
    · cases a with
      | key k => simp [waitAnswered, hrun] at hearly
      | noKey => exact ⟨rfl, rfl, rfl⟩
  · rw [hstops.frame]
    exact ⟨rfl, rfl, rfl⟩
  · obtain ⟨hrunning, hawake, e⟩ | ⟨hended, e⟩ := endIteration_cases u
    · simp [e, hrunning, hawake] at hearly
    · have hsuspended : u.keyWait ≠ none := hended.resolve_left (not_not_intro (hcompletes.run.trans hrun))
      obtain ⟨x, rfl⟩ := hcompletes.eq_setKeyWait hexec hkey hsuspended
      rw [e]
      exact ⟨rfl, rfl, rfl⟩

/-- A key wait draws nothing, and it sounds at most the Tone of its deferred tick, in a machine that goes on (R237). -/
theorem events_resolveWait (x : RegIx) {s : State} (hrun : s.run = .running) :
    (resolveWait x s).fb = s.fb ∧
    ∃ toned : Bool, (resolveWait x s).trace = s.trace ++ (if toned then [.tone] else []) ∧
      (toned = true → (resolveWait x s).run = .running) := by
  obtain ⟨-, -, e⟩ | ⟨_, -, e⟩ | ⟨a, _, inp, -, e⟩ := resolveWait_cases x s
  all_goals rw [e]
  · exact ⟨rfl, false, by simp, by simp⟩
  · exact ⟨rfl, false, by simp [waitStopped], by simp⟩
  · rw [waitAnswered_setInputs]
    cases a with
    | key k =>
      obtain ⟨toned, htoned⟩ := exists_toned_timerTick ((s.setV x (BitVec.ofNat 8 k.val)).setKeyWait none)
      exact ⟨by simp [waitAnswered], toned, htoned, by simp [waitAnswered, hrun]⟩
    | noKey => exact ⟨rfl, false, by simp [waitAnswered], by simp⟩

/-- Settles O49: the events are the Render of the instruction that completes, then the Tone of its tick
(`exists_toned_endIteration`) or of a key wait's (`events_resolveWait`). -/
theorem eventsAreOnlyAppended : Obligations.EventsAreOnlyAppended := by
  unfold Obligations.EventsAreOnlyAppended
  intro s t h
  obtain ⟨x, hrun, -, rfl⟩ | hstops | ⟨hrun, -, -, i, u, -, hcompletes, rfl⟩ := step_next_cases h
  · obtain ⟨hfb, toned, htoned, hran⟩ := events_resolveWait x hrun
    exact ⟨false, toned, by simp [htoned], fun hne => absurd hfb hne, fun hsounds => ⟨hrun, hran hsounds⟩⟩
  · rw [hstops.frame]
    exact ⟨false, false, by simp, by simp, by simp⟩
  · obtain ⟨toned, htoned⟩ := exists_toned_endIteration u
    have hran : (endIteration u).run = .running := (run_endIteration u).trans (hcompletes.run.trans hrun)
    obtain ⟨htrace, hfb⟩ | htrace := hcompletes.trace
    · exact ⟨false, toned, by simp [htoned, htrace], fun hne => absurd ((fb_endIteration u).trans hfb) hne,
        fun _ => ⟨hrun, hran⟩⟩
    · exact ⟨true, toned, by simp [htoned, htrace], fun _ => rfl, fun _ => ⟨hrun, hran⟩⟩

end Sys2Proof.Machine

/-! PROOFS. The invariant of every machine: it holds of a constructed machine, every step keeps it, and no host action touches
it; and the statements about the state's bounds. -/

namespace Sys2Proof.Machine

/-- The invariant speaks of memory, ProgEnd, PC, the stack and the suspension only. -/
theorem State.Inv.of_fields {s t : State} (hs : s.Inv) (hmem : t.mem = s.mem) (hend : t.progEnd = s.progEnd)
    (hpc : t.pc = s.pc) (hstack : t.stack = s.stack) (hwaiting : t.keyWait ≠ none → t.run = .running) : t.Inv where
  mem := hmem ▸ hs.mem
  progEndLow := hend ▸ hs.progEndLow
  progEndHigh := hend ▸ hs.progEndHigh
  pc := hpc ▸ hs.pc
  stack := hstack ▸ hs.stack
  waiting := hwaiting

/-! Every part of a step keeps the invariant. -/

theorem inv_endIteration {s : State} (hs : s.Inv) : (endIteration s).Inv := by
  obtain ⟨hrun, -, h⟩ | ⟨-, h⟩ := endIteration_cases s <;> rw [h]
  · exact hs.of_fields (timerTick_mem s) (timerTick_progEnd s) (timerTick_pc s) (timerTick_stack s)
      fun _ => (timerTick_run s).trans hrun
  · exact hs

theorem inv_resolveWait (x : RegIx) {s : State} (hs : s.Inv) : (resolveWait x s).Inv := by
  obtain ⟨-, -, h⟩ | ⟨_, -, h⟩ | ⟨a, _, _, -, h⟩ := resolveWait_cases x s <;> rw [h]
  · exact hs
  · apply hs.of_fields <;> simp [waitStopped]
  · cases a <;> apply hs.of_fields <;> simp [waitAnswered]

theorem canFetch_iff (s : State) : s.canFetch = true ↔ s.pc.toNat < s.progEnd ∧ s.pc.toNat + 1 ≤ 0xFFF := by
  simp [State.canFetch]

/-- The word after a fetched one begins at 0x1000 at most (R26). -/
theorem toNat_pc_add_two_le {s : State} (hfetch : s.canFetch = true) : (s.pc + 2).toNat ≤ 0x1000 := by
  obtain ⟨-, hhigh⟩ := (canFetch_iff s).mp hfetch
  bv_omega

/-- A step that stops leaves PC where it was or on the word after the fetched one. -/
theorem StopsRun.inv {s t : State} (h : StopsRun s t) (hs : s.Inv) : t.Inv := by
  have hpc : t.pc.toNat ≤ 0x10FE := by
    obtain hsame | ⟨hfetch, hnext⟩ := h.pc
    · rw [hsame]
      exact hs.pc
    · have := toNat_pc_add_two_le hfetch
      rw [hnext]
      omega
  rw [h.frame]
  exact ⟨hs.mem, hs.progEndLow, hs.progEndHigh, hpc, hs.stack, fun hwaiting => absurd h.awake hwaiting⟩

/-- An instruction keeps the canonical form of memory, jumps to 0x10FE at most and pushes a PC of 0x1000 at most
(`Completes`). -/
theorem Completes.inv {i : Instr} {s u : State} (h : Completes i s.atExecute u) (hs : s.Inv) (hrun : s.run = .running)
    (hfetch : s.canFetch = true) : u.Inv := by
  obtain ⟨hpc, hstack⟩ := h.code (toNat_pc_add_two_le hfetch) hs.stack
  exact ⟨h.memory hs.mem, h.progEnd ▸ hs.progEndLow, h.progEnd ▸ hs.progEndHigh, hpc, hstack,
    fun _ => h.run.trans hrun⟩

theorem inv_of_step {s t : State} (hs : s.Inv) (h : step s = .next t) : t.Inv := by
  obtain ⟨x, -, -, rfl⟩ | hstops | ⟨hrun, -, hfetch, _, _, -, hcompletes, rfl⟩ := step_next_cases h
  · exact inv_resolveWait x hs
  · exact hstops.inv hs
  · exact inv_endIteration (hcompletes.inv hs hrun hfetch)

/-- Settles O55: `inv_of_step`, part by part of the step. -/
theorem stepKeepsInvariant : Obligations.StepKeepsInvariant := by
  unfold Obligations.StepKeepsInvariant
  exact fun s t => inv_of_step

/-! Where machines begin. -/

/-- The reset state with any memory in canonical form and any extent of the program that fits. -/
theorem inv_reset_with {m : Memory} {e : Nat} (attached : Bool) (hm : m.wf = true) (hlow : 0x200 ≤ e)
    (hhigh : e ≤ 0x1000) : State.Inv { State.reset with mem := m, progEnd := e, displayAttached := attached } where
  mem := hm
  progEndLow := hlow
  progEndHigh := hhigh
  pc := (by decide : State.reset.pc.toNat ≤ 0x10FE)
  stack k := by rw [stack_reset]; decide
  waiting _ := rfl

/-- Settles O54: `inv_reset_with` for empty memory and an empty program. -/
theorem resetMeetsInvariant : Obligations.ResetMeetsInvariant := by
  unfold Obligations.ResetMeetsInvariant
  exact inv_reset_with false rfl le_rfl (by decide)

/-- Construction copies a font and a ROM that fit into memory (R280, R281). -/
theorem inv_of_construct {rom : Option (List Byte)} {font : Vector Byte 80} {attached : Bool} {s : State}
    (h : State.construct rom font attached = .ok s) : s.Inv := by
  cases rom with
  | none => cases h
  | some bytes =>
    obtain hfits | hlarge := le_or_gt bytes.length 3584
    · rw [construct_of_fits hfits] at h
      cases h
      refine inv_reset_with attached (wf_writeBlock (wf_fontMemory font) (rom_below_memSize hfits)) ?_ ?_ <;>
        rw [Config.progStart] <;> omega
    · rw [construct_of_too_large hlarge] at h
      cases h

/-- Settles O56, by induction on how the machine is reached. -/
theorem everyReachableMachineMeetsInvariant : Obligations.EveryReachableMachineMeetsInvariant := by
  unfold Obligations.EveryReachableMachineMeetsInvariant
  intro s hreach
  induction hreach with
  | construct h => exact inv_of_construct h
  | step _ h ih => exact inv_of_step ih h
  | host a _ ih => exact ih.of_fields rfl rfl rfl rfl ih.waiting

end Sys2Proof.Machine

/-! PROOFS. Single iterations: what each way through the loop head and the fetch answers, and the statements of 40_cycle.md and
70_reset_and_hazards.md about each. -/

namespace Sys2Proof.Machine

/-- Settles O13: a Running machine is in one of the other cases of `step_cases`, and Execute answers a next state. -/
theorem onlyAStoppedMachineHasNoStep : Obligations.OnlyAStoppedMachineHasNoStep := by
  unfold Obligations.OnlyAStoppedMachineHasNoStep
  refine ⟨fun s r hrun => by simp only [step, hrun], fun s hrun => ?_⟩
  obtain ⟨_, hstopped, -⟩ | ⟨_, -, -, e⟩ | ⟨-, -, -, e⟩ | ⟨-, -, -, -, -, e⟩ | ⟨-, -, e⟩ | ⟨-, -, -, e⟩ | ⟨-, -, e⟩ :=
    step_cases s
  on_goal 1 => simp [hrun] at hstopped
  on_goal 6 =>
    obtain ⟨_, -, e'⟩ | ⟨_, _, -, -, e'⟩ :=
      decodeExecute_cases (s.mem.readWord s.pc.toNat) (s.afterLoopHead.setPc (s.pc + 2)) <;>
      exact ⟨_, e.trans e'⟩
  all_goals exact ⟨_, e⟩

/-! The loop head (R111, R112). -/

theorem step_eq_iteration {s : State} (hrun : s.run = .running) (hkey : s.keyWait = none) : step s = iteration s := by
  simp only [step, hrun, hkey]

theorem loopHead_of_stopReq {s : State} (h : s.inputs.stopReq = true) : loopHead s = s.stop .stopSignal :=
  if_pos h

theorem loopHead_of_displayClosed {s : State} (hstop : s.inputs.stopReq = false) (hatt : s.displayAttached = true)
    (hclosed : s.drawIsOpen.1 = false) : loopHead s = s.drawIsOpen.2.stop .displayClosed := by
  simp [loopHead, hstop, hatt, hclosed]

/-- Settles O8: `loopHead_of_stopReq`, before the display is asked. -/
theorem stopLatchStopsBeforeFetch : Obligations.StopLatchStopsBeforeFetch := by
  unfold Obligations.StopLatchStopsBeforeFetch
  intro s hrun hkey hstop
  rw [step_eq_iteration hrun hkey, iteration, loopHead_of_stopReq hstop]
  rfl

/-- An attached display that answers closed stops the run at the loop head (R112). -/
theorem step_of_displayClosed {s : State} (hrun : s.run = .running) (hkey : s.keyWait = none)
    (hstop : s.inputs.stopReq = false) (hatt : s.displayAttached = true) (hclosed : s.drawIsOpen.1 = false) :
    step s = .next (s.drawIsOpen.2.stop .displayClosed) := by
  rw [step_eq_iteration hrun hkey, iteration, loopHead_of_displayClosed hstop hatt hclosed]
  rfl

/-- Settles O9: the answer is the oldest queued one (`drawIsOpen_of_cons`) or the free value (`drawIsOpen_of_nil`); with no
display attached `step_keeps` has the queue unchanged. -/
theorem closedDisplayStopsAttachedMachine : Obligations.ClosedDisplayStopsAttachedMachine := by
  unfold Obligations.ClosedDisplayStopsAttachedMachine
  refine ⟨fun s rest hrun hkey hstop hatt hqueue => ?_, fun s hrun hkey hstop hatt hqueue => ?_,
    fun s t hatt h => (step_keeps h).isOpen hatt⟩
  · have hdraw := drawIsOpen_of_cons hqueue
    rw [step_of_displayClosed hrun hkey hstop hatt (by rw [hdraw]), hdraw]
    rfl
  · have hdraw := drawIsOpen_of_nil hqueue
    cases hopen : Config.isOpen s.inputs.draws with
    | true =>
      have hpass : s.passesLoopHead = true :=
        (passesLoopHead_iff s).mpr ⟨hrun, hkey, hstop, by simp [hdraw, hopen]⟩
      rw [step_eq_fetchDecodeExecute hpass, afterLoopHead_of_attached hatt, hdraw]
      rfl
    | false =>
      rw [step_of_displayClosed hrun hkey hstop hatt (by rw [hdraw]; exact hopen), hdraw]
      rfl

/-! The fetch (R113). -/

/-- `fetch_cases` where PC is at or past ProgEnd. -/
theorem fetch_of_end {s : State} (h : s.progEnd ≤ s.pc.toNat) : fetch s = (none, s.stop .endOfProgram) :=
  if_pos h

/-- Settles O10: `fetch_of_end` after a passed loop head. -/
theorem endOfProgramStops : Obligations.EndOfProgramStops := by
  unfold Obligations.EndOfProgramStops
  intro s hpass hend
  have hfetch := fetch_of_end (s := s.afterLoopHead) (by rw [afterLoopHead_eq]; exact hend)
  rw [step_eq_fetchDecodeExecute hpass, fetchDecodeExecute, hfetch, afterLoopHead_eq]
  rfl

/-! Decode, Execute and the tick (R114 to R122). -/

theorem exec_answers (i : Instr) (s : State) : ∃ t, exec i s = .next t := by
  obtain ⟨_, -, -, e⟩ | ⟨t, e, -⟩ := exec_cases i s
  · exact ⟨_, e⟩
  · exact ⟨t, e⟩

theorem endIteration_of_completed {s : State} (hrun : s.run = .running) (hkey : s.keyWait = none) :
    endIteration s = s.timerTick := by
  simp only [endIteration, hrun, hkey]

/-- Settles O7: the step is Execute followed by the end of the iteration (`step_eq_endIteration`). -/
theorem stepRunsDecodedInstruction : Obligations.StepRunsDecodedInstruction := by
  unfold Obligations.StepRunsDecodedInstruction
  intro s i hpass hfetch hdecode
  obtain ⟨t, hexec⟩ := exec_answers i s.atExecute
  rw [← decodeWord_readWord] at hdecode
  have hstep := step_eq_endIteration hpass hfetch hdecode hexec
  refine ⟨t, hexec, fun hrun hkey => ?_, fun hearly => ?_⟩
  · rw [hstep, endIteration_of_completed hrun hkey]
  · obtain hstopped | hsuspended := hearly
    · rw [hstep, endIteration_of_not_running hstopped]
    · obtain ⟨x, hx⟩ := Option.ne_none_iff_exists'.mp hsuspended
      rw [hstep, endIteration_of_suspended hx]

/-! The empty program (R284). -/

/-- Writing what unlisted memory reads as leaves empty memory empty. -/
theorem writeBlock_nil {a : Nat} {bs : List Byte} (h : ∀ k, (hk : k < bs.length) → bs[k] = Memory.initial (a + k)) :
    Memory.writeBlock [] a bs = [] := by
  induction bs generalizing a with
  | nil => rfl
  | cons b bs ih =>
    have hb : b = Memory.initial a := h 0 (by simp)
    rw [Memory.writeBlock, Memory.write, Memory.cell, if_pos hb]
    refine ih fun k hk => ?_
    rw [Nat.add_right_comm]
    exact h (k + 1) (by simpa using hk)

/-- Settles O52: the default font leaves memory empty (`writeBlock_nil`), and PC stands at the end of an empty program
(`endOfProgramStops`). -/
theorem resetIsAnEmptyConstruction : Obligations.ResetIsAnEmptyConstruction := by
  unfold Obligations.ResetIsAnEmptyConstruction
  constructor
  · have hfont : fontMemory (Vector.ofFn fun k : Fin 80 => Memory.initial k.val) = [] :=
      writeBlock_nil fun k hk => by simp [Config.fontBase]
    rw [construct_of_fits (by simp), constructedMemory, hfont]
    rfl
  · exact endOfProgramStops State.reset rfl le_rfl

/-! A placed word (log 2). -/

/-- Where a word is placed, its two bytes fit into memory. -/
theorem toNat_fetchAddr_le (s : State) : (fetchAddr s).toNat + 1 ≤ 0xFFF := by
  unfold fetchAddr
  split
  · assumption
  · decide

theorem withFetchWord_toNat (s : State) (w : Word) : s.withFetchWord 16 w.toNat = s.placeWord w := by
  rw [State.withFetchWord, Nat.mod_eq_of_lt w.isLt, BitVec.ofNat_toNat, BitVec.setWidth_eq]

/-- The loop head passes: no stop is requested, and an attached display answers open. -/
theorem passesLoopHead_placeWord (s : State) (w : Word) : (s.placeWord w).passesLoopHead = true := by
  refine (passesLoopHead_iff _).mpr ⟨rfl, rfl, rfl, ?_⟩
  cases hatt : s.displayAttached with
  | false => simp [State.placeWord, hatt]
  | true =>
    have hqueue : (s.placeWord w).inputs.isOpen = true :: s.inputs.isOpen := by
      simp [State.placeWord, Inputs.passLoopHead, hatt]
    simp [drawIsOpen_of_cons hqueue]

theorem canFetch_placeWord (s : State) (w : Word) : (s.placeWord w).canFetch = true := by
  have hend : (fetchAddr s).toNat < max s.progEnd ((fetchAddr s).toNat + 2) := by omega
  exact (canFetch_iff _).mpr ⟨hend, toNat_fetchAddr_le s⟩

theorem readWord_placeWord {s : State} (w : Word) (hwf : s.mem.wf = true) :
    (s.placeWord w).mem.readWord (s.placeWord w).pc.toNat = w := by
  have hblock : (fetchAddr s).toNat + [highByte w, lowByte w].length ≤ Config.memSize := by
    have := toNat_fetchAddr_le s
    simp only [List.length_cons, List.length_nil, Config.memSize]
    omega
  have hhigh := read_writeBlock_of_getElem? hwf hblock (k := 0) rfl
  have hlow := read_writeBlock_of_getElem? hwf hblock (k := 1) rfl
  exact (congrArg₂ wordOf hhigh hlow).trans (wordOf_bytes w)

/-- Settles O57: the placed word is fetched, and it decodes to the instruction it encodes (`decodeWord_encode`). -/
theorem placedWordIsRunNext : Obligations.PlacedWordIsRunNext := by
  unfold Obligations.PlacedWordIsRunNext
  intro s i hmem hwf
  rw [withFetchWord_toNat]
  have hpass := passesLoopHead_placeWord s (encode i)
  have hfetch := canFetch_placeWord s (encode i)
  have hread := readWord_placeWord (encode i) hmem
  refine ⟨hpass, hfetch, hread, ?_⟩
  rw [step_eq_decodeExecute hpass hfetch, hread, decodeExecute, decodeWord_encode hwf]
  rfl

end Sys2Proof.Machine

/-! PROOFS. Pairs of instructions: a return after a call, a draw after the same draw, a reload after a spill; and the random
byte. -/

namespace Sys2Proof.Machine

/-- Settles O25: the return pops the slot the call wrote (`push_of_lt`, `pop_of_eq_succ`). -/
theorem returnUndoesCall : Obligations.ReturnUndoesCall := by
  unfold Obligations.ReturnUndoesCall
  intro nnn s t p hroom hcall
  rw [exec, execCall, push_of_lt s.pc hroom] at hcall
  obtain rfl := Host.Outcome.next.inj hcall
  rw [exec, execRet, pop_of_eq_succ ⟨s.sp.val, hroom⟩ rfl]
  simp [State.setPc]

/-! The random byte (R172, R267): `drawRandByte_cases` by what is queued. -/

theorem drawRandByte_of_cons {s : State} {b : Byte} {bs : List Byte} (h : s.inputs.randByte = b :: bs) :
    s.drawRandByte = (b, s.setInputs { s.inputs with randByte := bs }) := by
  rw [State.drawRandByte, h]

theorem drawRandByte_of_nil {s : State} (h : s.inputs.randByte = []) :
    s.drawRandByte = (Config.randByte s.inputs.draws, s.setInputs s.inputs.drawn) := by
  rw [State.drawRandByte, h]

/-- RND by what the draw answers: the byte and the inputs it leaves. -/
theorem exec_rnd_of_draw {s : State} {b : Byte} {inp : Inputs} (x : RegIx) (nn : Byte)
    (h : s.drawRandByte = (b, s.setInputs inp)) : exec (.rnd x nn) s = .next ((s.setInputs inp).setV x (b &&& nn)) := by
  rw [exec, execRnd, h]

/-- Settles O33: the byte drawn is the oldest queued one, the free value, or any byte put in front of the queue. -/
theorem randomAndMasksTheDraw : Obligations.RandomAndMasksTheDraw := by
  unfold Obligations.RandomAndMasksTheDraw
  refine fun x nn s => ⟨fun r rest hqueue => ?_, fun hqueue => ?_, fun r => ?_⟩
  · exact ⟨_, exec_rnd_of_draw x nn (drawRandByte_of_cons hqueue), fun q => getV_setV _ x q _, rfl⟩
  · exact ⟨_, exec_rnd_of_draw x nn (drawRandByte_of_nil hqueue), fun q => getV_setV _ x q _, rfl⟩
  · exact ⟨_, exec_rnd_of_draw x nn (drawRandByte_of_cons rfl), getV_setV_same ..⟩

/-- Settles O36: the second draw covers the same pixels, so each is inverted twice (`pixel_drawSprite`), and on a clear screen
it collides where the first one lit a pixel (`collide_drawSprite`). -/
theorem drawTwiceRestores : Obligations.DrawTwiceRestores := by
  unfold Obligations.DrawTwiceRestores
  intro x y n s t hx hy hin hdraw
  rw [exec_drw_of_inRange x y hin] at hdraw
  obtain rfl := Host.Outcome.next.inj hdraw
  generalize hbytes : s.mem.readBlock s.i.toNat n = bytes
  have hfirst := pixel_drawSprite s.fb (s.getV x) (s.getV y) bytes
  have hcoll := collide_drawSprite s.fb (s.getV x) (s.getV y) bytes
  generalize hdrawn : drawSprite s.fb (s.getV x) (s.getV y) bytes = drawn at hfirst hcoll
  have hagain : exec (.drw x y n) (s.showDrawn drawn) =
      .next ((s.showDrawn drawn).showDrawn (drawSprite drawn.1 (s.getV x) (s.getV y) bytes)) := by
    rw [exec_drw_of_inRange (s := s.showDrawn drawn) x y hin, getV_showDrawn, getV_showDrawn, if_neg hx, if_neg hy,
      ← hbytes]
    rfl
  have hcollAgain := collide_drawSprite drawn.1 (s.getV x) (s.getV y) bytes
  refine ⟨_, hagain, framebuffer_ext fun r c => ?restored, fun hoff => ⟨?noCollision, fun ⟨r, c, hlit⟩ => ?collision,
    fun hdark => ?nothingLit⟩⟩
  case restored => simp [pixel_drawSprite, hfirst]
  case noCollision => simp [Bool.eq_false_iff.mpr (mt hcoll.mp (by simp [hoff])), flagByte]
  case collision =>
    have hcovered : covers (anchorColumn (s.getV x)) (anchorRow (s.getV y)) bytes r c = true := by
      simpa [hfirst, hoff] using hlit
    simp [hcollAgain.mpr ⟨r, c, hcovered, hlit⟩, flagByte]
  case nothingLit =>
    rw [showDrawn_fb] at hdark
    simp [Bool.eq_false_iff.mpr (mt hcollAgain.mp (by simp [hdark])), flagByte]

/-- Settles O41: the reload reads the bytes the store wrote (`storeRegistersWritesBlock`, `loadRegistersReadsBlock`). -/
theorem spillThenReloadRestores : Obligations.SpillThenReloadRestores := by
  unfold Obligations.SpillThenReloadRestores
  intro x s t w hwf hle hstore
  obtain ⟨t', hstore', hblock, -, hframe⟩ := (storeRegistersWritesBlock x s hwf).1 hle
  obtain rfl := Host.Outcome.next.inj (hstore.symm.trans hstore')
  have hi : t.i = s.i := by rw [hframe]
  obtain ⟨u, hload, hregs, -⟩ := (loadRegistersReadsBlock x { t with v := w }).1 (by rw [hi]; exact hle)
  refine ⟨u, hload, fun k => (hregs k).trans ?_⟩
  split
  · next hk => rw [hi]; exact hblock k hk
  · rfl

end Sys2Proof.Machine

/-! PROOFS. Frames of Execute in registers and memory: which registers an instruction writes, which it does not depend on, and
which addresses it stores to; the statements of 10_state.md R23 and 20_memory.md R52. -/

namespace Sys2Proof.Machine

/-! The registers written (R23). -/

/-- A register that the table does not list as written keeps its value. -/
theorem getV_of_exec {i : Instr} {s t : State} {r : RegIx} (h : exec i s = .next t) (hr : Spec.writesV i r = false) :
    t.getV r = s.getV r := by
  cases i
  case ldImm | addImm | ldReg | orReg | andReg | xorReg | ldVxDt =>
    cases h
    exact getV_setV_other s _ (ne_of_beq_false hr)
  case addReg | sub | shr | subn | shl =>
    obtain ⟨hx, hflag⟩ := Bool.or_eq_false_iff.mp hr
    cases h
    rw [getV_setResult, flagReg, if_neg (ne_of_beq_false hflag), if_neg (ne_of_beq_false hx)]
  case rnd =>
    cases h
    rw [getV_setV_other _ _ (ne_of_beq_false hr), drawRandByte_getV]
  case drw x y n =>
    by_cases hin : inRange s.i.toNat n = true
    · rw [exec_drw_of_inRange x y hin] at h
      cases h
      rw [getV_showDrawn, if_neg (ne_of_beq_false hr)]
    · rw [exec_drw_of_not_inRange x y hin] at h
      cases h
      rfl
  case loadRegs x =>
    obtain hgt | hle := Nat.lt_or_ge 0xFFF (s.i.toNat + x.val)
    · rw [exec_loadRegs_of_gt hgt] at h
      cases h
      rfl
    · rw [exec_loadRegs_of_le hle] at h
      cases h
      rw [getV_setVs_loadBlock_readBlock, if_neg (of_decide_eq_false hr)]
  all_goals
    rw [exec_eq_writtenBy h]
    rfl

/-- Settles O46: `getV_of_exec`, contraposed. -/
theorem registerWritersAreTheTable : Obligations.RegisterWritersAreTheTable := by
  unfold Obligations.RegisterWritersAreTheTable
  intro i s t r h hchanged
  by_contra hr
  exact hchanged (getV_of_exec h (Bool.eq_false_iff.mpr hr))

/-! The registers read (R23). -/

/-- `t` agrees with `s` in every field but the register file and in every register but `r`. -/
def AgreeOff (r : RegIx) (s t : State) : Prop := t = { s with v := t.v } ∧ ∀ q, q ≠ r → t.getV q = s.getV q

theorem AgreeOff.setV {r : RegIx} {s t : State} (h : AgreeOff r s t) (x : RegIx) (b : Byte) :
    AgreeOff r (s.setV x b) (t.setV x b) := by
  obtain ⟨hfields, hregs⟩ := h
  refine ⟨by rw [hfields]; rfl, fun q hq => ?_⟩
  rw [getV_setV, getV_setV, hregs q hq]

theorem AgreeOff.setResult {r : RegIx} {s t : State} (h : AgreeOff r s t) (x : RegIx) (b : Byte) (f : Bool) :
    AgreeOff r (s.setResult x b f) (t.setResult x b f) :=
  (h.setV x b).setV flagReg (flagByte f)

/-- A draw of the host's answers neither reads nor writes a register. -/
theorem drawRandByte_setVs (s : State) (w : Vector Byte 16) :
    (s.setVs w).drawRandByte = (s.drawRandByte.1, s.drawRandByte.2.setVs w) := by
  obtain ⟨b, bs, hqueue, h⟩ | ⟨hqueue, h⟩ := drawRandByte_cases s <;> rw [h]
  · exact drawRandByte_of_cons (s := s.setVs w) hqueue
  · exact drawRandByte_of_nil (s := s.setVs w) hqueue

theorem drawKeyHeld_setVs (s : State) (k : Key) (w : Vector Byte 16) :
    (s.setVs w).drawKeyHeld k = ((s.drawKeyHeld k).1, (s.drawKeyHeld k).2.setVs w) := by
  obtain ⟨b, bs, hqueue, h⟩ | ⟨hqueue, h⟩ := drawKeyHeld_cases s k <;> rw [h]
  · exact drawKeyHeld_of_cons (s := s.setVs w) k hqueue
  · exact drawKeyHeld_of_nil (s := s.setVs w) k hqueue

/-- The block of V0 to Vx is read from those registers only. -/
theorem regBlock_congr {s t : State} {x : RegIx} (h : ∀ k, k ≤ x → t.getV k = s.getV k) :
    t.regBlock (regCount x) = s.regBlock (regCount x) := by
  apply List.ext_getElem?
  intro k
  by_cases hk : k < regCount x
  · rw [regBlock_getElem? t _ k hk x.isLt, regBlock_getElem? s _ k hk x.isLt, h _ (Nat.le_of_lt_succ hk)]
  · have hk : x.val + 1 ≤ k := Nat.le_of_not_lt hk
    rw [List.getElem?_eq_none (by rwa [length_regBlock_regCount]),
      List.getElem?_eq_none (by rwa [length_regBlock_regCount])]

/-! The call stack's operations neither read nor write a register. -/

theorem push_setVs (s : State) (ra : Word) (w : Vector Byte 16) :
    (s.setVs w).push ra = (s.push ra).map (·.setVs w) := by
  obtain ⟨hfull, hpush⟩ | ⟨hroom, hpush⟩ := push_cases s ra
  · rw [hpush, push_of_full (s := s.setVs w) ra hfull]
    rfl
  · rw [hpush, push_of_lt (s := s.setVs w) ra hroom]
    rfl

theorem pop_setVs (s : State) (w : Vector Byte 16) :
    (s.setVs w).pop = s.pop.map fun p => (p.1, p.2.setVs w) := by
  obtain ⟨hempty, hpop⟩ | ⟨hpos, hpop⟩ := pop_cases s
  · rw [hpop, pop_of_empty (s := s.setVs w) hempty]
    rfl
  · have hpos' : 0 < (s.setVs w).sp.val := hpos
    rw [hpop, State.pop, dif_pos hpos']
    rfl

/-- An instruction that writes no register commutes with replacing the register file by one that agrees on what it reads. -/
theorem exec_setVs {i : Instr} {s t : State} {w : Vector Byte 16} (hwrites : ∀ q, Spec.writesV i q = false)
    (hreads : ∀ q, Spec.readsV i q = true → (s.setVs w).getV q = s.getV q) (h : exec i s = .next t) :
    exec i (s.setVs w) = .next (t.setVs w) := by
  cases i
  case cls | jp | ldI | ldVxK =>
    cases h
    rfl
  case ret =>
    rw [exec, execRet] at h ⊢
    rw [pop_setVs]
    cases hpop : s.pop with
    | none | some p => rw [hpop] at h; cases h; rfl
  case call nnn =>
    rw [exec, execCall] at h ⊢
    rw [push_setVs, setVs_pc]
    cases hpush : s.push s.pc with
    | none | some p => rw [hpush] at h; cases h; rfl
  case seImm | sneImm | jpV0 | ldDtVx | ldStVx | addI | ldF =>
    have hx := hreads _ (beq_self_eq_true _)
    cases h
    simp only [exec, execSeImm, execSneImm, execJpV0, execLdDtVx, execLdStVx, execAddI, execLdF, hx]
    rfl
  case seReg x y | sneReg x y =>
    have hx := hreads x (by simp [Spec.readsV])
    have hy := hreads y (by simp [Spec.readsV])
    cases h
    simp only [exec, execSeReg, execSneReg, hx, hy]
    rfl
  case skp x | sknp x =>
    have hx := hreads x (beq_self_eq_true x)
    simp only [exec, execSkp, execSknp, hx, drawKeyHeld_setVs] at h ⊢
    cases hkey : keyOperand (s.getV x) with
    | none | some k => rw [hkey] at h; cases h; rfl
  case ldB x =>
    obtain hgt | hle := Nat.lt_or_ge 0xFFF (s.i.toNat + 2)
    · rw [exec_ldB_of_gt x hgt] at h
      cases h
      exact exec_ldB_of_gt (s := s.setVs w) x hgt
    · rw [exec_ldB_of_le x hle] at h
      cases h
      rw [exec_ldB_of_le (s := s.setVs w) x hle, hreads x (beq_self_eq_true x)]
      rfl
  case storeRegs x =>
    obtain hgt | hle := Nat.lt_or_ge 0xFFF (s.i.toNat + x.val)
    · rw [exec_storeRegs_of_gt hgt] at h
      cases h
      exact exec_storeRegs_of_gt (s := s.setVs w) hgt
    · rw [exec_storeRegs_of_le hle] at h
      cases h
      rw [exec_storeRegs_of_le (s := s.setVs w) hle, regBlock_congr fun k hk => hreads k (decide_eq_true hk)]
      rfl
  case drw => simpa [Spec.writesV] using hwrites 15
  case ldImm x _ | addImm x _ | ldReg x _ | orReg x _ | andReg x _ | xorReg x _ | addReg x _ | sub x _ | shr x _ |
      subn x _ | shl x _ | rnd x _ | ldVxDt x | loadRegs x =>
    simpa [Spec.writesV] using hwrites x

/-- An instruction from a register file that differs only in `r`, which it does not read, leaves states that differ at most
in `r`. -/
theorem exec_setVs_agreeOff {i : Instr} {s t : State} {r : RegIx} {w : Vector Byte 16}
    (hw : ∀ q, q ≠ r → (s.setVs w).getV q = s.getV q) (hr : Spec.readsV i r = false) (h : exec i s = .next t) :
    ∃ u, exec i (s.setVs w) = .next u ∧ AgreeOff r t u := by
  have hreads (q : RegIx) (hq : Spec.readsV i q = true) : (s.setVs w).getV q = s.getV q :=
    hw q (by rintro rfl; simp [hr] at hq)
  by_cases hwrites : ∀ q, Spec.writesV i q = false
  · exact ⟨t.setVs w, exec_setVs hwrites hreads h, rfl,
      fun q hq => (hw q hq).trans (getV_of_exec h (hwrites q)).symm⟩
  have hagree : AgreeOff r s (s.setVs w) := ⟨rfl, hw⟩
  cases i
  case ldImm | ldVxDt =>
    cases h
    exact ⟨_, rfl, hagree.setV ..⟩
  case addImm x _ | ldReg _ x =>
    have hx := hreads x (beq_self_eq_true x)
    cases h
    exact ⟨_, rfl, hx ▸ hagree.setV ..⟩
  case orReg x y | andReg x y | xorReg x y =>
    have hx := hreads x (by simp [Spec.readsV])
    have hy := hreads y (by simp [Spec.readsV])
    cases h
    exact ⟨_, rfl, hx ▸ hy ▸ hagree.setV ..⟩
  case addReg x y | sub x y | subn x y =>
    have hx := hreads x (by simp [Spec.readsV])
    have hy := hreads y (by simp [Spec.readsV])
    cases h
    exact ⟨_, rfl, hx ▸ hy ▸ hagree.setResult ..⟩
  case shr x _ | shl x _ =>
    have hx := hreads x (beq_self_eq_true x)
    cases h
    exact ⟨_, rfl, hx ▸ hagree.setResult ..⟩
  case rnd x nn =>
    cases h
    refine ⟨_, by rw [exec, execRnd, drawRandByte_setVs], AgreeOff.setV ⟨rfl, fun q hq => ?_⟩ ..⟩
    rw [drawRandByte_getV]
    exact hw q hq
  case drw x y n =>
    by_cases hin : inRange s.i.toNat n = true
    · rw [exec_drw_of_inRange x y hin] at h
      cases h
      refine ⟨_, exec_drw_of_inRange (s := s.setVs w) x y hin, ?_⟩
      rw [hreads x (by simp [Spec.readsV]), hreads y (by simp [Spec.readsV])]
      refine ⟨rfl, fun q hq => ?_⟩
      rw [getV_showDrawn, getV_showDrawn, hw q hq]
      rfl
    · rw [exec_drw_of_not_inRange x y hin] at h
      cases h
      exact ⟨_, exec_drw_of_not_inRange (s := s.setVs w) x y hin, rfl, hw⟩
  case loadRegs x =>
    obtain hgt | hle := Nat.lt_or_ge 0xFFF (s.i.toNat + x.val)
    · rw [exec_loadRegs_of_gt hgt] at h
      cases h
      exact ⟨_, exec_loadRegs_of_gt (s := s.setVs w) hgt, rfl, hw⟩
    · rw [exec_loadRegs_of_le hle] at h
      cases h
      refine ⟨_, exec_loadRegs_of_le (s := s.setVs w) hle, rfl, fun q hq => ?_⟩
      rw [getV_setVs_loadBlock_readBlock, getV_setVs_loadBlock_readBlock, hw q hq]
      rfl
  all_goals exact absurd (fun _ => rfl) hwrites

/-- Settles O47: a write to the one register is a register file that differs in it only (`exec_setVs_agreeOff`). -/
theorem registersNotReadDoNotMatter : Obligations.RegistersNotReadDoNotMatter := by
  unfold Obligations.RegistersNotReadDoNotMatter
  intro i s t r b hr h
  exact exec_setVs_agreeOff (w := s.v.set r b) (fun q hq => getV_setV_other s b hq) hr h

/-! The addresses stored to (R52). -/

/-- Settles O48: LD B and LD [I], Vx write their block or fault (`read_writeBlock_outside`); no other instruction writes
memory (`exec_eq_writtenBy`). -/
theorem storesTouchOnlyTheirBlock : Obligations.StoresTouchOnlyTheirBlock := by
  unfold Obligations.StoresTouchOnlyTheirBlock
  intro i s t a hwf h hout
  cases i
  case ldB x =>
    obtain hgt | hle := Nat.lt_or_ge 0xFFF (s.i.toNat + 2)
    · rw [exec_ldB_of_gt x hgt] at h
      cases h
      rfl
    · rw [exec_ldB_of_le x hle] at h
      cases h
      exact read_writeBlock_outside hwf (by rw [bcdDigits_length, Config.memSize]; omega) hout
  case storeRegs x =>
    obtain hgt | hle := Nat.lt_or_ge 0xFFF (s.i.toNat + x.val)
    · rw [exec_storeRegs_of_gt hgt] at h
      cases h
      rfl
    · rw [exec_storeRegs_of_le hle] at h
      cases h
      have hlen := length_regBlock_regCount x s
      exact read_writeBlock_outside hwf (by rw [hlen, Config.memSize]; omega) (by rw [hlen]; exact hout)
  all_goals
    rw [exec_eq_writtenBy h]
    rfl

end Sys2Proof.Machine
